-- ==== Sys2Proof/Word.lean ====
section
/-! DEFINITION. The word types of the Matrix framer: a byte of the stream, a decoder command word, a feed key. -/

namespace Sys2Proof

/-- A stream byte, a row byte: an unsigned 8-bit value (00_scope R13). -/
abbrev Byte := BitVec 8

/-- A decoder command word: `op = w[9:8]`, `data = w[7:0]` (30_encoding R66). -/
abbrev CommandWord := BitVec 10

/-- A feed key: the sync bit, `cnt[2:0]` and the byte (30_encoding R71). -/
abbrev FeedKey := BitVec 12

end Sys2Proof
end

