-- ==== Sys2Proof/Config.lean ====
section
/-! DEFINITION. The fixed constants of the frame (00_scope R8, R9), the implementation parameters the spec leaves open
(00_scope R10) and the free values. -/

namespace Sys2Proof

namespace Config

/-- `HEADER_BYTE` (00_scope R8). -/
abbrev headerByte : Byte := 0xAA

/-- `N_ROWS` (00_scope R9): rows of a bitmap, payload bytes of a frame, slots of the row buffer. -/
abbrev nRows : Nat := 8

/-- `FRAME_LEN` (00_scope R9). -/
abbrev frameLen : Nat := 9

/-- `BYTE_WIDTH` (00_scope R9). -/
abbrev byteWidth : Nat := 8

/-- `COUNT_WIDTH` (00_scope R10, D5). -/
abbrev countWidth : Nat := 4

/-- `DEVICE_INDEX` (00_scope R9): the only device index the decoder passes to the sink. -/
abbrev deviceIndex : Nat := 0

end Config

/-- `SINK_ERROR_POLICY` (00_scope R10, D7): what a delivery does with the rows after a rejected one. -/
inductive SinkErrorPolicy where
  /-- the rejected call is the last call of the delivery (40_decoder R89) -/
  | abortRemaining
  /-- every one of the eight calls is issued (40_decoder R90) -/
  | continueRows
deriving DecidableEq, Repr, Inhabited

/-- The display sink's answer to one `writeRow` call (60_exceptions R143). -/
inductive SinkAnswer where
  | accept
  | reject
deriving DecidableEq, Repr, Inhabited

/-- The implementation parameters of 00_scope R10 (`COUNT_WIDTH` has one value and is a constant above). They are
fixed for a machine; State carries them, so that a statement about every state is about every value of them. -/
structure Params where
  /-- `HAS_DISCARD_COUNTER` -/
  hasDiscardCounter : Bool
  /-- `DISCARD_COUNTER_WIDTH` -/
  discardCounterWidth : Nat
  /-- `SINK_ERROR_POLICY` -/
  sinkErrorPolicy : SinkErrorPolicy
deriving DecidableEq, Repr

namespace Config

/-- The value of `SINK_ERROR_POLICY` on the machine of `State.reset`. The spec leaves it OPEN, with no default
(00_scope R10): a free value, nothing constrains it. DESIGN CHOICE, safe: log entry 4. -/
opaque sinkErrorPolicy : SinkErrorPolicy

/-- The sink's answer to the call numbered `n`, where no answer is listed in State: a free draw for every call
(60_exceptions R143, D8). DESIGN CHOICE (its form), safe: log entry 5. -/
opaque sinkAnswer : Nat → SinkAnswer

end Config

end Sys2Proof
end

