-- ==== Sys2Proof/Machine/State.lean ====
section
/-! DEFINITION. The machine's state as plain data: the decoder's state elements (10_state R20), the constructed
instances (10_state R31), the inputs a step reads (10_state R35) and the observation it adds to (70_reset R184). -/

namespace Sys2Proof.Machine

/-- Why the machine stops with a fault. -/
inductive Fault where
  /-- A read of a row-buffer slot that holds no value (00_scope R15, 10_state R28). Raised by FEED.LAST's reads
  (`Decoder.readRows`). Safe: the source gives such a slot no value, and no run of a constructed instance gets here. -/
  | unwrittenSlot (slot : Nat)
deriving DecidableEq, Repr

/-- Why a step has no meaning. -/
inductive Refusal where
  /-- Raised by an arm of `exec` whose instruction has no meaning yet (none is left). Safe. -/
  | notModelled (mnemonic : String)
  /-- Raised by `step`: the word spells no command (30_encoding R70, 60_exceptions R146). Safe. -/
  | illegalCommandWord (w : CommandWord)
  /-- Raised by every decoder operation but RESET: the instance has never been constructed (40_decoder R80). Safe. -/
  | notConstructed (id : Nat)
  /-- Raised by the four feed-key operations: the state's feed key does not select this one (30_encoding R72). Safe. -/
  | keyNotSelected
  /-- Raised by RDCNT: the instance has no discard counter (40_decoder R96). Safe. -/
  | noDiscardCounter
deriving DecidableEq, Repr

/-- `S.mode`: WAITING_FOR_HEADER or COLLECTING_ROWS, the block's only flag (10_state R21). -/
inductive Mode where
  | waiting
  | collecting
deriving DecidableEq, Repr

/-- The state of one FrameDecoder instance (10_state R20). -/
structure Decoder where
  /-- `S.mode` (10_state R21) -/
  mode : Mode
  /-- `S.cnt` (10_state R22) -/
  cnt : BitVec 4
  /-- `S.row[0..7]` (10_state R23): a slot without a value is `none` -/
  row : Vector (Option Byte) 8
  /-- `S.discards` (10_state R24): `none` where there is no counter -/
  discards : Option Nat
deriving DecidableEq, Repr

/-- What the caller can issue: a command word to one decoder instance, or a request to the encoder. -/
inductive Input where
  | command (id : Nat) (w : CommandWord)
  | request (data : List Byte)
deriving DecidableEq, Repr

/-- The display sink as the block sees it: the answers it is going to give, next first, and the number of calls made
so far, which the free answer of `Config.sinkAnswer` is applied to when no answer is listed (60_exceptions R143). -/
structure Sink where
  answers : List SinkAnswer
  calls : Nat
deriving DecidableEq, Repr

/-- The unit a step belongs to (00_scope R11). -/
inductive UnitId where
  | encoder
  | decoder (id : Nat)
deriving DecidableEq, Repr

/-- The status every step returns (60_exceptions R140). -/
inductive Status where
  | ok
  | invalidBitmapLength (n : Nat)
  | sinkRejected (row : Nat)
deriving DecidableEq, Repr

/-- The output event `WriteRow(deviceIndex, rowIndex, rowValue)`, with the sink's answer (30_encoding R76). -/
structure WriteRow where
  deviceIndex : Nat
  rowIndex : Nat
  rowValue : Byte
  answer : SinkAnswer
deriving DecidableEq, Repr

/-- The result of a step: none, a completed Bitmap (40_decoder R92), a counter value (R96), a frame (30_encoding R75). -/
inductive StepResult where
  | nothing
  | bitmap (B : List Byte)
  | count (n : Nat)
  | frame (f : List Byte)
deriving DecidableEq, Repr

/-- What one step shows the caller (10_state R33, 70_reset R184). -/
structure StepRecord where
  unit : UnitId
  result : StepResult
  status : Status
  events : List WriteRow
deriving DecidableEq, Repr

/-- The machine. -/
structure State where
  /-- the implementation parameters, fixed for the machine (00_scope R10) -/
  params : Params
  /-- the constructed instances, their numbers strictly rising (10_state R31) -/
  decoders : List (Nat × Decoder)
  /-- the instance the command being run is addressed to -/
  active : Nat
  /-- what the caller has issued and no step has taken yet, next first (10_state R35) -/
  inputs : List Input
  /-- the display sink (10_state R35) -/
  sink : Sink
  /-- the observation of the run so far, oldest first (70_reset R184) -/
  outputs : List StepRecord
deriving DecidableEq, Repr

/-- An instance right after its construction (10_state R30, 70_reset R170). -/
def Decoder.fresh (p : Params) : Decoder where
  mode := .waiting
  cnt := 0
  row := Vector.replicate 8 none
  discards := if p.hasDiscardCounter then some 0 else none

/-- The parameters' defaults (00_scope R10); `SINK_ERROR_POLICY` has none and is a free value. -/
def Params.default : Params where
  hasDiscardCounter := false
  discardCounterWidth := 32
  sinkErrorPolicy := Config.sinkErrorPolicy

/-- A machine with the given parameters whose instance 0 has just been constructed. -/
def State.resetWith (p : Params) : State where
  params := p
  decoders := [(0, Decoder.fresh p)]
  active := 0
  inputs := []
  sink := ⟨[], 0⟩
  outputs := []

/-- The machine right after reset: reset is the construction of a decoder (70_reset R170), here instance 0, on a
machine with the default parameters (00_scope R10). DESIGN CHOICE for the fields that are the model's own: log
entries 2, 5, 6 and 7. -/
def State.reset : State := State.resetWith Params.default

end Sys2Proof.Machine
end

