-- ==== Sys2Proof/Machine/Ops.lean ====
section
/-! DEFINITION. The named operations over the state: instances, the row buffer, the display sink, and the end of a
step (result, status and events), which is also what the block does with an error. -/

namespace Sys2Proof.Machine

open Host (Outcome)

/-! ### The constructed instances (10_state R31) -/

/-- The state of instance `id`; `none` where it has never been constructed. -/
def lookupDecoder (id : Nat) : List (Nat × Decoder) → Option Decoder
  | [] => none
  | (j, d) :: rest => if id = j then some d else lookupDecoder id rest

/-- Give instance `id` the state `d`, keeping the list's numbers strictly rising. -/
def insertDecoder (id : Nat) (d : Decoder) : List (Nat × Decoder) → List (Nat × Decoder)
  | [] => [(id, d)]
  | (j, e) :: rest =>
    if id < j then (id, d) :: (j, e) :: rest
    else if id = j then (id, d) :: rest
    else (j, e) :: insertDecoder id d rest

/-- The canonical form of the list of instances: numbers strictly rising. -/
def risingFrom : List (Nat × Decoder) → Bool
  | [] => true
  | (j, _) :: rest => rest.all (fun x => decide (j < x.1)) && risingFrom rest

/-- The state of instance `id`. -/
def State.decoder? (s : State) (id : Nat) : Option Decoder := lookupDecoder id s.decoders

/-- Instance `id` in a new state; no other instance and no other field changes (10_state R31). -/
def State.setDecoder (s : State) (id : Nat) (d : Decoder) : State :=
  { s with decoders := insertDecoder id d s.decoders }

/-- Run an operation on the instance a command is addressed to. An instance that was never constructed admits no
command (40_decoder R80, D6). -/
def onActive (s : State) (f : Decoder → Outcome State Fault Refusal) : Outcome State Fault Refusal :=
  match s.decoder? s.active with
  | some d => f d
  | none => .refused (.notConstructed s.active)

/-! ### The row buffer (20_memory R40) -/

/-- `MemRead(i, 1)`: the value slot `i` holds, if it holds one (00_scope R15). -/
def Decoder.memRead (d : Decoder) (i : Nat) : Option Byte := (d.row[i]?).join

/-- `MemWrite(i, 1, v)` (00_scope R15). -/
def Decoder.memWrite (d : Decoder) (i : Nat) (v : Byte) : Decoder :=
  { d with row := d.row.setIfInBounds i (some v) }

/-- `for i in 0..7: S.row[i] <- none`: the buffer cleared (10_state R23). -/
def Decoder.clearRows (d : Decoder) : Decoder := { d with row := Vector.replicate Config.nRows none }

/-- Append a row byte: write the slot the count names and increment the count (40_decoder R86, R87). In FEED.LAST the
count becomes 8, a value that exists inside that step only (10_state R22). -/
def Decoder.append (d : Decoder) (b : Byte) : Decoder :=
  { d.memWrite d.cnt.toNat b with cnt := d.cnt + 1 }

/-- Read slots `i`, `i+1`, … (`n` of them) in ascending order; the first slot without a value faults
(00_scope R15, 20_memory R40). -/
def Decoder.readRows (d : Decoder) : (i n : Nat) → Except Fault (List Byte)
  | _, 0 => .ok []
  | i, n + 1 =>
    match d.memRead i with
    | none => .error (.unwrittenSlot i)
    | some v =>
      match d.readRows (i + 1) n with
      | .ok vs => .ok (v :: vs)
      | .error e => .error e

/-- The complete Bitmap: slots 0 to 7 (40_decoder R87). -/
def Decoder.readBitmap (d : Decoder) : Except Fault (List Byte) := d.readRows 0 Config.nRows

/-- The values RESET gives every element (40_decoder R81, 10_state R30). -/
def Decoder.constructed (p : Params) : Decoder where
  mode := .waiting
  cnt := 0
  row := Vector.replicate Config.nRows none
  discards := if p.hasDiscardCounter then some 0 else none

/-! ### The display sink (60_exceptions R143) -/

/-- The sink's answer to the `j`-th of the coming calls: the listed one, or a free draw of its own. -/
def Sink.answer (sk : Sink) (j : Nat) : SinkAnswer :=
  match sk.answers[j]? with
  | some a => a
  | none => Config.sinkAnswer (sk.calls + j)

/-- The sink after one call. -/
def Sink.afterCall (sk : Sink) : Sink := ⟨sk.answers.tail, sk.calls + 1⟩

/-- What a delivery gives: the status, the events in order, and the sink after its calls. -/
structure Delivery where
  status : Status
  events : List WriteRow
  sink : Sink
deriving DecidableEq, Repr

/-- `Deliver` from row `r` on (40_decoder R88): one call a row, ascending. The first rejected row is the status; it
ends the delivery under `ABORT_REMAINING` (R89) and does not under `CONTINUE` (R90). No call is issued again. -/
def deliverFrom (policy : SinkErrorPolicy) : (r : Nat) → List Byte → Sink → Delivery
  | _, [], sk => ⟨.ok, [], sk⟩
  | r, v :: vs, sk =>
    let call : WriteRow := ⟨Config.deviceIndex, r, v, sk.answer 0⟩
    let after := sk.afterCall
    match sk.answer 0, policy with
    | .accept, _ =>
      let rest := deliverFrom policy (r + 1) vs after
      ⟨rest.status, call :: rest.events, rest.sink⟩
    | .reject, .abortRemaining => ⟨.sinkRejected r, [call], after⟩
    | .reject, .continueRows =>
      let rest := deliverFrom policy (r + 1) vs after
      ⟨.sinkRejected r, call :: rest.events, rest.sink⟩

/-- `Deliver(B)` (40_decoder R88). -/
def deliver (policy : SinkErrorPolicy) (B : List Byte) (sk : Sink) : Delivery := deliverFrom policy 0 B sk

/-! ### The end of a step, and errors (60_exceptions R140, R148, R149) -/

/-- End a step of `u`: the caller is given the result, the status and the events. An ERROR IS A STATUS RETURNED HERE
AND NOTHING MORE: it saves no state, changes no mode, masks nothing and transfers control nowhere, so this is the whole
of error entry (60_exceptions R148), and there is no return from an error: the next command goes by its own rule
(60_exceptions R149). -/
def State.finish (s : State) (u : UnitId) (result : StepResult) (status : Status) (events : List WriteRow) : State :=
  { s with outputs := s.outputs ++ [⟨u, result, status, events⟩] }

/-- End a step of the active instance that has no error and no events. -/
def State.finishQuiet (s : State) (result : StepResult) : State :=
  s.finish (.decoder s.active) result .ok []

end Sys2Proof.Machine
end

