-- ==== Sys2Proof/Machine/Flags.lean ====
section
/-! DEFINITION. The flag, the statuses and the wrapping counter: `S.mode` is the block's only flag (10_state R21), the
statuses have codes (60_exceptions R140), and the discard counter is the one value that wraps (40_decoder R95). -/

namespace Sys2Proof.Machine

/-- A header has been consumed: COLLECTING, count 0, buffer cleared (40_decoder R84). -/
def Decoder.startFrame (d : Decoder) : Decoder :=
  { d.clearRows with mode := .collecting, cnt := 0 }

/-- The return to WAITING after a frame: count 0, buffer cleared, `S.discards` unchanged (40_decoder R87, 70_reset R171). -/
def Decoder.endFrame (d : Decoder) : Decoder :=
  { d.clearRows with mode := .waiting, cnt := 0 }

/-- One more discarded byte: plus 1 modulo two to the width (40_decoder R95). -/
def bumpDiscards (width n : Nat) : Nat := (n + 1) % 2 ^ width

/-- The counter, where there is one, after a discarded byte (40_decoder R85, R95). -/
def Decoder.countDiscard (p : Params) (d : Decoder) : Decoder :=
  { d with discards := d.discards.map (bumpDiscards p.discardCounterWidth) }

/-- The code of a status (60_exceptions R140, D9). -/
def Status.code : Status → Nat
  | .ok => 0
  | .invalidBitmapLength _ => 1
  | .sinkRejected _ => 2

end Sys2Proof.Machine
end

