-- ==== Sys2Proof/Machine/Control.lean ====
section
/-! DEFINITION. The meanings of RESET, IDLE and RDCNT (40_decoder R81, R82, R96). -/

namespace Sys2Proof.Machine

open Host (Outcome)

/-- RESET: construct, or construct again, the instance the command is addressed to. No sink call, no result, no error;
a partial frame is dropped silently (40_decoder R81, 70_reset R172). -/
def execReset (s : State) : Outcome State Fault Refusal :=
  .next ((s.setDecoder s.active (Decoder.constructed s.params)).finishQuiet .nothing)

/-- IDLE: a poll that finds no byte changes nothing (40_decoder R82). -/
def execIdle (s : State) : Outcome State Fault Refusal :=
  onActive s fun _ => .next (s.finishQuiet .nothing)

/-- RDCNT: the counter's value; reading does not clear it. Refused where there is no counter (40_decoder R96). -/
def execRdcnt (s : State) : Outcome State Fault Refusal :=
  onActive s fun d =>
    match d.discards with
    | some n => .next (s.finishQuiet (.count n))
    | none => .refused .noDiscardCounter

end Sys2Proof.Machine
end

