-- ==== Sys2Proof/Syntax.lean ====
section
/-! DEFINITION. The instructions: one constructor for each row of spec/opcode_table.json. -/

namespace Sys2Proof

/-- The commands a caller gives a FrameDecoder (30_encoding R66), the four behaviours one of them, FEED, selects
(30_encoding R72), and the FrameEncoder's one request (30_encoding R74). -/
inductive Instr where
  /-- IDLE (40_decoder R82): a poll that finds no byte. -/
  | idle
  /-- FEED `b` (40_decoder R83): consume one byte of the stream. -/
  | feed (b : Byte)
  /-- RESET (40_decoder R81): construct, or construct again, the decoder. -/
  | reset
  /-- RDCNT (40_decoder R96): read the discard counter. -/
  | rdcnt
  /-- FEED.LAST (40_decoder R87): the eighth row byte. -/
  | feedLast (b : Byte)
  /-- FEED.ROW (40_decoder R86): a row byte consumed with `S.cnt = k`. -/
  | feedRow (k : BitVec 3) (b : Byte)
  /-- FEED.HDR (40_decoder R84): the header byte, consumed while waiting. -/
  | feedHdr
  /-- FEED.DISCARD (40_decoder R85): any other byte, consumed while waiting. -/
  | feedDiscard (b : Byte)
  /-- ENCODE `data` (41_encoder R110). -/
  | encode (data : List Byte)
deriving DecidableEq, Repr

end Sys2Proof
end

