-- ==== Sys2Proof/WellFormed.lean ====
section
/-! DEFINITION. Which terms of `Instr`, and which parameters, the spec admits. -/

namespace Sys2Proof

/-- The operands a row admits: FEED.ROW has `S.cnt` in 0..6, its key with 7 being FEED.LAST's (30_encoding R72);
FEED.DISCARD's byte is not the header byte (30_encoding R72). Every other operand is free: every byte may be fed
(30_encoding R65), and a list of any length may be given to ENCODE (30_encoding R74, R78). -/
def Instr.wellFormed : Instr → Bool
  | .idle => true
  | .feed _ => true
  | .reset => true
  | .rdcnt => true
  | .feedLast _ => true
  | .feedRow k _ => k != 7#3
  | .feedHdr => true
  | .feedDiscard b => b != Config.headerByte
  | .encode _ => true

/-- `DISCARD_COUNTER_WIDTH` is at least 1 (00_scope R10). -/
def Params.wellFormed (p : Params) : Bool := decide (1 ≤ p.discardCounterWidth)

end Sys2Proof
end

