-- ==== Sys2Proof/Decode.lean ====
section
/-! DEFINITION. The encodings of spec/30_encoding.md: the command word, the feed key and its first-match table, the
encode request; the decoder, and after it the encoder. -/

namespace Sys2Proof

/-! ### Fields of a command word -/

/-- `op = w[9:8]` (30_encoding R66). -/
def opField (w : CommandWord) : BitVec 2 := w.extractLsb' 8 2

/-- `data = w[7:0]` (30_encoding R66, R68). -/
def dataField (w : CommandWord) : Byte := w.extractLsb' 0 8

/-- Why a word spells no command. -/
inductive DecodeReject where
  /-- `op = 0b11` where `HAS_DISCARD_COUNTER = false` (30_encoding R70) -/
  | noSuchCommand
deriving DecidableEq, Repr

/-- The command a word spells (30_encoding R66). IDLE, RESET and RDCNT ignore the data bits (R67); `op = 0b11` is a
command only where the discard counter exists (R70). -/
def decodeCommand (hasDiscardCounter : Bool) (w : CommandWord) : Except DecodeReject Instr :=
  match (opField w).toNat with
  | 0 => .ok .idle
  | 1 => .ok (.feed (dataField w))
  | 2 => .ok .reset
  | _ => if hasDiscardCounter then .ok .rdcnt else .error .noSuchCommand

/-! ### The feed key -/

/-- `key[11]` (30_encoding R71). -/
def keySync (key : FeedKey) : BitVec 1 := key.extractLsb' 11 1

/-- `key[10:8]` (30_encoding R71). -/
def keyCount (key : FeedKey) : BitVec 3 := key.extractLsb' 8 3

/-- `key[7:0]` (30_encoding R71). -/
def keyByte (key : FeedKey) : Byte := key.extractLsb' 0 8

/-- `key = ` the sync bit, `cnt[2:0]`, the byte, the first in the most significant place (30_encoding R71). -/
def makeKey (sync : BitVec 1) (cnt : BitVec 3) (b : Byte) : FeedKey := sync ++ cnt ++ b

/-- The four behaviours of a FEED (30_encoding R72). -/
inductive FeedCase where
  | last
  | row
  | hdr
  | discard
deriving DecidableEq, Repr

/-- One row of the table of 30_encoding R72. -/
structure KeyRow where
  behaviour : FeedCase
  matchBits : FeedKey
  mask : FeedKey
deriving DecidableEq, Repr

/-- Does the row match: `(key & mask) = match` (30_encoding R72). -/
def KeyRow.hits (r : KeyRow) (key : FeedKey) : Bool := key &&& r.mask == r.matchBits

/-- The table of 30_encoding R72, in its order. -/
def keyTable : List KeyRow :=
  [⟨.last, 0xF00, 0xF00⟩, ⟨.row, 0x800, 0x800⟩, ⟨.hdr, 0x0AA, 0x8FF⟩, ⟨.discard, 0x000, 0x800⟩]

/-- The first row of the table that matches (30_encoding R72); every key matches one. -/
def selectCase (key : FeedKey) : Option FeedCase := (keyTable.find? (·.hits key)).map (·.behaviour)

/-- The behaviour a feed key selects, with its operands (30_encoding R72). The table is total, so the last arm is
never taken (Laws/Decode.lean); it repeats the table's last row. -/
def decodeKey (key : FeedKey) : Instr :=
  match selectCase key with
  | some .last => .feedLast (keyByte key)
  | some .row => .feedRow (keyCount key) (keyByte key)
  | some .hdr => .feedHdr
  | some .discard => .feedDiscard (keyByte key)
  | none => .feedDiscard (keyByte key)

/-! ### One decoder for the three encodings -/

/-- The words of an instruction: a command word, a feed key, or an encode request, which has no opcode bits
(30_encoding R66, R71, R74). -/
inductive Encoding where
  | command (w : CommandWord)
  | key (key : FeedKey)
  | request (data : List Byte)
deriving DecidableEq, Repr

/-- The instruction an encoding stands for. -/
def decode (hasDiscardCounter : Bool) : Encoding → Except DecodeReject Instr
  | .command w => decodeCommand hasDiscardCounter w
  | .key key => .ok (decodeKey key)
  | .request data => .ok (.encode data)

/-! ### The encoder -/

/-- A command word from its two fields (30_encoding R66). -/
def makeCommand (op : BitVec 2) (data : Byte) : CommandWord := op ++ data

/-- The words of a well-formed instruction, in the canonical spelling (30_encoding R66, R67, R72, R74). -/
def encode : Instr → Encoding
  | .idle => .command (makeCommand 0b00#2 0x00)
  | .feed b => .command (makeCommand 0b01#2 b)
  | .reset => .command (makeCommand 0b10#2 0x00)
  | .rdcnt => .command (makeCommand 0b11#2 0x00)
  | .feedLast b => .key (makeKey 1 7 b)
  | .feedRow k b => .key (makeKey 1 k b)
  | .feedHdr => .key (makeKey 0 0 Config.headerByte)
  | .feedDiscard b => .key (makeKey 0 0 b)
  | .encode data => .request data

/-! ### Words as spec/opcode_table.json numbers them -/

/-- Which of the three encodings the bits of a table row are. The widths are 10 (command word), 12 (feed key) and
none (encode request). In whole bytes both words have 16 bits, and below `0x400` the two spaces overlap (a FEED.HDR
key `0x0AA` has the bits of an IDLE word with data bits that IDLE ignores). There the bits are read as a command
word when they are one in the spelling the spec calls canonical or carry an operand (`op` not 0, or the word `0x000`),
and as a feed key otherwise. DESIGN CHOICE, safe (no step reads a table word): log entry 9. -/
def tableEncoding (nbits w : Nat) : Option Encoding :=
  match nbits with
  | 0 => some (.request [])
  | 10 => if w < 0x400 then some (.command (BitVec.ofNat 10 w)) else none
  | 12 => if w < 0x1000 then some (.key (BitVec.ofNat 12 w)) else none
  | 16 =>
    if w = 0 ∨ (0x100 ≤ w ∧ w < 0x400) then some (.command (BitVec.ofNat 10 w))
    else if w < 0x1000 then some (.key (BitVec.ofNat 12 w))
    else none
  | _ => none

/-- The instruction the decoder reads from the bits of a table row, on a machine that has every row of the table
(`HAS_DISCARD_COUNTER = true`). -/
def decodeTableWord (nbits w : Nat) : Option Instr :=
  match tableEncoding nbits w with
  | none => none
  | some e =>
    match decode true e with
    | .ok i => some i
    | .error _ => none

end Sys2Proof
end

