-- ==== Sys2Proof/Machine/Operands.lean ====
section
/-! DEFINITION. The operand forms: the feed key of a state and a byte (30_encoding R71), the byte classes (R65), the
pixel of a row byte (20_memory R43), the frame and its parts (30_encoding R60, R62). -/

namespace Sys2Proof.Machine

/-- `key[11]` is 1 exactly when `S.mode = COLLECTING` (30_encoding R71). -/
def Mode.syncBit : Mode → BitVec 1
  | .waiting => 0
  | .collecting => 1

/-- `S.cnt[2:0]` (30_encoding R71). -/
def Decoder.countLow (d : Decoder) : BitVec 3 := d.cnt.extractLsb' 0 3

/-- The feed key of a FEED of `b` (30_encoding R71). -/
def Decoder.feedKey (d : Decoder) (b : Byte) : FeedKey := makeKey d.mode.syncBit d.countLow b

/-- The four byte classes (30_encoding R65). -/
inductive ByteClass where
  | header
  | noise
  | rowByte
  | lastRowByte
deriving DecidableEq, Repr

/-- The class of a consumed byte, by the decoder's state and the byte's value (30_encoding R65). -/
def Decoder.byteClass (d : Decoder) (b : Byte) : ByteClass :=
  match d.mode with
  | .waiting => if b = Config.headerByte then .header else .noise
  | .collecting => if d.cnt = 7 then .lastRowByte else .rowByte

/-- Pixel (row `r`, column `c`) of a Bitmap, column 0 leftmost: bit `7 - c` of row byte `r`, 1 lit (30_encoding R62). -/
def pixelLit (B : List Byte) (r c : Nat) : Bool := (B[r]?.getD 0).getLsbD (7 - c)

/-- The frame of a Bitmap: the header byte, then rows 0 to 7 (30_encoding R60). -/
def frameOf (B : List Byte) : List Byte := Config.headerByte :: B

end Sys2Proof.Machine
end

