-- ==== Sys2Proof/Machine/Encoder.lean ====
section
/-! DEFINITION. The meaning of ENCODE, the FrameEncoder's one operation (41_encoder R110 to R114). -/

namespace Sys2Proof.Machine

open Host (Outcome)

/-- ENCODE as the pure function it is (41_encoder R111): the result and the status for a list of bytes. A list whose
length is not 8 gives `InvalidBitmapLength(n)` and no byte (R112); nothing is padded, cut or escaped (R113, R114). -/
def encodeRequest (data : List Byte) : StepResult × Status :=
  if data.length = Config.nRows then (.frame (frameOf data), .ok)
  else (.nothing, .invalidBitmapLength data.length)

/-- ENCODE: the encoder has no state, so the request's result and status are all that happens (41_encoder R110). -/
def execEncode (data : List Byte) (s : State) : Outcome State Fault Refusal :=
  .next (s.finish .encoder (encodeRequest data).1 (encodeRequest data).2 [])

end Sys2Proof.Machine
end

