-- ==== Sys2Proof/Machine/Feed.lean ====
section
/-! DEFINITION. The meanings of the FEED family (40_decoder R83 to R92): the frame synchronizer (FEED.HDR,
FEED.DISCARD), the payload accumulator (FEED.ROW, FEED.LAST), and FEED, which runs one of the four.

The four are the behaviours a feed key selects. Each checks that the state selects it; where the state does not, the
spec gives it no step, and it is refused as `keyNotSelected`. DESIGN CHOICE, safe: log entry 8. -/

namespace Sys2Proof.Machine

open Host (Outcome)

/-- FEED.HDR: the header is consumed while waiting, and a frame starts (40_decoder R84). -/
def execFeedHdr (s : State) : Outcome State Fault Refusal :=
  onActive s fun d =>
    match d.mode with
    | .waiting => .next ((s.setDecoder s.active d.startFrame).finishQuiet .nothing)
    | .collecting => .refused .keyNotSelected

/-- FEED.DISCARD: any other byte is dropped while waiting, and counted where there is a counter (40_decoder R85, R95). -/
def execFeedDiscard (b : Byte) (s : State) : Outcome State Fault Refusal :=
  onActive s fun d =>
    if d.mode = .waiting ∧ b ≠ Config.headerByte then
      .next ((s.setDecoder s.active (d.countDiscard s.params)).finishQuiet .nothing)
    else .refused .keyNotSelected

/-- FEED.ROW: a byte consumed with `S.cnt = k`, `k` in 0..6, is row `k` whatever its value (40_decoder R86, R94). -/
def execFeedRow (k : BitVec 3) (b : Byte) (s : State) : Outcome State Fault Refusal :=
  onActive s fun d =>
    if d.mode = .collecting ∧ d.cnt.toNat = k.toNat ∧ k ≠ 7 then
      .next ((s.setDecoder s.active (d.append b)).finishQuiet .nothing)
    else .refused .keyNotSelected

/-- Hand the Bitmap to the display sink and end the step: the decoder is already back in WAITING whatever the sink
answers, the result is the Bitmap, the status is the delivery's (40_decoder R87, R88, R91, R92). -/
def finishDelivery (B : List Byte) (s : State) : State :=
  let dl := deliver s.params.sinkErrorPolicy B s.sink
  { s with sink := dl.sink }.finish (.decoder s.active) (.bitmap B) dl.status dl.events

/-- FEED.LAST: the eighth row byte is appended, the Bitmap is read, the decoder returns to WAITING and the Bitmap is
delivered, all in this step (40_decoder R87). -/
def execFeedLast (b : Byte) (s : State) : Outcome State Fault Refusal :=
  onActive s fun d =>
    if d.mode = .collecting ∧ d.cnt = 7 then
      match (d.append b).readBitmap with
      | .ok B => .next (finishDelivery B (s.setDecoder s.active (d.append b).endFrame))
      | .error e => .fault e
    else .refused .keyNotSelected

/-- FEED `b`: the dispatch of 40_decoder R83. -/
def execFeed (b : Byte) (s : State) : Outcome State Fault Refusal :=
  onActive s fun d =>
    match d.mode with
    | .waiting => if b = Config.headerByte then execFeedHdr s else execFeedDiscard b s
    | .collecting => if d.cnt = 7 then execFeedLast b s else execFeedRow d.countLow b s

end Sys2Proof.Machine
end

