-- ==== Sys2Proof/Machine/Dispatch.lean ====
section
/-! DEFINITION. One arm per instruction: which meaning it has. -/

namespace Sys2Proof.Machine

def exec (i : Instr) (s : State) : Host.Outcome State Fault Refusal :=
  match i with
  | .idle => Sys2Proof.Machine.execIdle s
  | .feed b => Sys2Proof.Machine.execFeed b s
  | .reset => Sys2Proof.Machine.execReset s
  | .rdcnt => Sys2Proof.Machine.execRdcnt s
  | .feedLast b => Sys2Proof.Machine.execFeedLast b s
  | .feedRow k b => Sys2Proof.Machine.execFeedRow k b s
  | .feedHdr => Sys2Proof.Machine.execFeedHdr s
  | .feedDiscard b => Sys2Proof.Machine.execFeedDiscard b s
  | .encode data => Sys2Proof.Machine.execEncode data s

end Sys2Proof.Machine
end

