-- ==== Sys2Proof/Machine/Fetch.lean ====
section
/-! DEFINITION. Taking the next input (30_encoding R66, R70, R74), and placing a table word so that the next step runs
its instruction. The block fetches no program (20_memory R56): a command comes from the caller, through
`State.inputs`. -/

namespace Sys2Proof.Machine

/-- What there is to run. -/
inductive Fetched where
  /-- no command and no request has been issued (00_scope R12, case b) -/
  | nothing
  /-- the word spells no command (30_encoding R70) -/
  | illegal (w : CommandWord)
  /-- the instruction, and the state it runs in: the input taken, the instance addressed -/
  | run (i : Instr) (s : State)
deriving DecidableEq, Repr

/-- Take the next input. -/
def fetch (s : State) : Fetched :=
  match s.inputs with
  | [] => .nothing
  | .request data :: rest => .run (.encode data) { s with inputs := rest }
  | .command id w :: rest =>
    match decodeCommand s.params.hasDiscardCounter w with
    | .ok i => .run i { s with inputs := rest, active := id }
    | .error _ => .illegal w

/-! ### Placing the word of a table row -/

/-- Issue a command to the active instance, before everything else. -/
def State.issue (s : State) (i : Input) : State := { s with inputs := i :: s.inputs }

/-- The active instance, constructed if it never was. -/
def State.activeOrNew (s : State) : Decoder := (s.decoder? s.active).getD (Decoder.constructed s.params)

/-- Make sure the active instance is constructed, which every command but RESET needs (40_decoder R80). -/
def State.ensureBuilt (s : State) : State := s.setDecoder s.active s.activeOrNew

/-- The machine with the discard counter, which the row of RDCNT has as its condition. -/
def State.withCounter (s : State) : State :=
  let d := s.activeOrNew
  { s with params := { s.params with hasDiscardCounter := true } }.setDecoder s.active
    { d with discards := some (d.discards.getD 0) }

/-- An instance in COLLECTING with `k` rows: it keeps the rows it has and holds `0x00` in those it lacks. -/
def Decoder.collectingWith (d : Decoder) (k : Nat) : Decoder :=
  { d with
    mode := .collecting
    cnt := BitVec.ofNat 4 k
    row := Vector.ofFn fun i : Fin 8 => if i.val < k then some ((d.memRead i.val).getD 0) else none }

/-- The feed-key row's configuration, in which a FEED selects it (30_encoding R71, R72), and the FEED. -/
def State.issueKeyed (s : State) (i : Instr) : State :=
  let d := s.activeOrNew
  match i with
  | .feedLast b => (s.setDecoder s.active (d.collectingWith 7)).issue (.command s.active (makeCommand 0b01#2 b))
  | .feedRow k b =>
    (s.setDecoder s.active (d.collectingWith k.toNat)).issue (.command s.active (makeCommand 0b01#2 b))
  | .feedHdr =>
    (s.setDecoder s.active { d.clearRows with mode := .waiting, cnt := 0 }).issue
      (.command s.active (makeCommand 0b01#2 Config.headerByte))
  | .feedDiscard b =>
    (s.setDecoder s.active { d.clearRows with mode := .waiting, cnt := 0 }).issue
      (.command s.active (makeCommand 0b01#2 b))
  | .idle | .feed _ | .reset | .rdcnt | .encode _ => s

/-- `s` with the instruction of a table row issued, and with what that row's condition asks for: an instance that is
constructed; for RDCNT, the counter; for a feed-key row, the configuration that selects it. DESIGN CHOICE, safe (no
step does this): log entry 9. -/
def placeTableWord (s : State) (nbits w : Nat) : State :=
  match tableEncoding nbits w with
  | none => s
  | some (.request data) => s.issue (.request data)
  | some (.key key) => s.issueKeyed (decodeKey key)
  | some (.command w) =>
    if opField w = 0b10#2 then s.issue (.command s.active w)
    else if opField w = 0b11#2 then s.withCounter.issue (.command s.active w)
    else s.ensureBuilt.issue (.command s.active w)

end Sys2Proof.Machine
end

