-- ==== Sys2Proof/Machine/Step.lean ====
section
/-! DEFINITION. One step of the machine (00_scope R11, R12): the next input is taken and its instruction runs, whole
(20_memory R47). -/

namespace Sys2Proof.Machine

/-- One step. With nothing issued there is no step: the state stays (00_scope R12, case b). A word that spells no
command is refused (case c). -/
def step (s : State) : Host.Outcome State Fault Refusal :=
  match fetch s with
  | .nothing => .next s
  | .illegal w => .refused (.illegalCommandWord w)
  | .run i s' => exec i s'

/-- `s` with the instruction of a table row placed where `step` takes its next input. -/
def State.withFetchWord (s : State) (nbits w : Nat) : State := placeTableWord s nbits w

end Sys2Proof.Machine
end

