-- ==== Sys2Proof/Machine/Link.lean ====
section
/-! DEFINITION. Runs, and the link laws' vocabulary (42_link): feeding bytes to an instance, the Bitmaps it delivered,
the list view of its state (10_state R29) and the stream function `Decode` (42_link R121). -/

namespace Sys2Proof.Machine

open Host (Outcome)

/-! ### Runs (70_reset R184) -/

/-- `n` steps, ending at the first fault or refusal. -/
def run : Nat → State → Outcome State Fault Refusal
  | 0, s => .next s
  | n + 1, s =>
    match step s with
    | .next t => run n t
    | .fault e => .fault e
    | .refused r => .refused r

/-- The run that takes exactly the inputs `xs`. -/
def runInputs (xs : List Input) (s : State) : Outcome State Fault Refusal := run xs.length { s with inputs := xs }

/-- One FEED command a byte, to instance `id` (30_encoding R66). -/
def feedInputs (id : Nat) (bytes : List Byte) : List Input :=
  bytes.map fun b => .command id (makeCommand 0b01#2 b)

/-- `run(S, s)` of 42_link: the bytes are fed to instance `id`, one FEED a byte. -/
def feedBytes (id : Nat) (bytes : List Byte) (s : State) : Outcome State Fault Refusal :=
  runInputs (feedInputs id bytes) s

/-- Is the input a command to instance `id`? -/
def Input.addresses (id : Nat) : Input → Bool
  | .command j _ => j == id
  | .request _ => false

/-- Is the input an IDLE command (`op = 0b00`, 30_encoding R66)? -/
def Input.isIdle : Input → Bool
  | .command _ w => opField w == 0b00#2
  | .request _ => false

/-- Is the input an RDCNT command (`op = 0b11`, 30_encoding R66)? -/
def Input.isRdcnt : Input → Bool
  | .command _ w => opField w == 0b11#2
  | .request _ => false

/-! ### What a run shows -/

/-- The Bitmap a step of instance `id` delivered, if it delivered one (40_decoder R92). -/
def StepRecord.delivered? (id : Nat) (r : StepRecord) : Option (List Byte) :=
  match r.unit, r.result with
  | .decoder j, .bitmap B => if j = id then some B else none
  | _, _ => none

/-- The Bitmaps instance `id` has delivered, in order. -/
def State.deliveries (s : State) (id : Nat) : List (List Byte) := s.outputs.filterMap (StepRecord.delivered? id)

/-- The eight calls of a delivery of `B`, each with the answer the sink gives it (40_decoder R88). -/
def rowCalls (B : List Byte) (sk : Sink) : List WriteRow :=
  B.mapIdx fun r v => ⟨Config.deviceIndex, r, v, sk.answer r⟩

/-! ### The stream function (42_link R121) -/

/-- The nine configurations of 10_state R27, seen as a list (10_state R29). -/
inductive LinkState where
  | waiting
  | collecting (rows : List Byte)
deriving DecidableEq, Repr

/-- The written slots, in order: the source's "ordered sequence of up to 8 bytes" (10_state R29). -/
def Decoder.rows (d : Decoder) : List Byte := d.row.toList.filterMap id

/-- The list view of an instance (10_state R29). -/
def Decoder.view (d : Decoder) : LinkState :=
  match d.mode with
  | .waiting => .waiting
  | .collecting => .collecting d.rows

/-- The loop of `Decode` (42_link R121): skip to a header, take the eight bytes after it, go on after them. Every turn
takes nine bytes or more, so one turn a byte is more than enough. -/
def decodeStreamLoop : Nat → List Byte → LinkState × List (List Byte)
  | 0, _ => (.waiting, [])
  | turns + 1, s =>
    match s.dropWhile (fun b => b != Config.headerByte) with
    | [] => (.waiting, [])
    | _ :: payload =>
      if payload.length < Config.nRows then (.collecting payload, [])
      else
        let rest := decodeStreamLoop turns (payload.drop Config.nRows)
        (rest.1, payload.take Config.nRows :: rest.2)

/-- `Decode(s)`: the final state and the deliveries of a stream fed to a waiting decoder (42_link R121). -/
def decodeStream (s : List Byte) : LinkState × List (List Byte) := decodeStreamLoop s.length s

end Sys2Proof.Machine
end

