-- ==== Sys2Proof/Safety.lean ====
section
/-! DEFINITION. What claims mean by a sound state and a framed step: the stable-state invariant (10_state R27), the
discard counter's bounds (10_state R24), and what a command to one instance leaves alone (10_state R31). -/

namespace Sys2Proof.Machine

/-- `S.mode = WAITING`, `S.cnt = 0`, every slot empty: the state `W` of 40_decoder, the first case of 10_state R27. -/
abbrev Decoder.IsWaiting (d : Decoder) : Prop := d.mode = .waiting ∧ d.cnt = 0 ∧ ∀ i : Fin 8, d.row[i] = none

/-- The second case of 10_state R27: COLLECTING, `k` in 0..7, exactly the slots below `k` written. -/
abbrev Decoder.IsCollecting (d : Decoder) (k : Nat) : Prop :=
  d.mode = .collecting ∧ d.cnt.toNat = k ∧ k ≤ 7 ∧ ∀ i : Fin 8, (d.row[i]).isSome = decide (i.val < k)

/-- The stable-state invariant (10_state R27). -/
abbrev Decoder.Stable (d : Decoder) : Prop := d.IsWaiting ∨ d.IsCollecting d.cnt.toNat

/-- The state `C(k; v0..vk-1)` of 40_decoder: COLLECTING, the bytes of `v` in the first slots, the other slots empty. -/
abbrev Decoder.Holds (d : Decoder) (v : List Byte) : Prop :=
  d.mode = .collecting ∧ d.cnt.toNat = v.length ∧ v.length ≤ 7 ∧
    d.row.toList = v.map some ++ List.replicate (8 - v.length) none

/-- The framing state: everything but the discard counter (42_link R132). -/
def Decoder.framing (d : Decoder) : Mode × BitVec 4 × Vector (Option Byte) 8 := (d.mode, d.cnt, d.row)

/-- The counter is there exactly when the machine has counters, and is in range (10_state R24). -/
abbrev Decoder.CounterSound (p : Params) (d : Decoder) : Prop :=
  d.discards.isSome = p.hasDiscardCounter ∧ d.discards.all (fun n => decide (n < 2 ^ p.discardCounterWidth)) = true

/-- The machine's invariant: parameters in range, instances listed in canonical form, each one stable and with a sound
counter. -/
abbrev State.Inv (s : State) : Prop :=
  s.params.wellFormed = true ∧ risingFrom s.decoders = true ∧
    ∀ x ∈ s.decoders, x.2.Stable ∧ x.2.CounterSound s.params

/-- What no command and no request changes, but for the addressed instance, the sink and the observation: the
parameters, the inputs still to come, the address, and every other instance (10_state R31). -/
abbrev State.SameElsewhere (s t : State) : Prop :=
  t.params = s.params ∧ t.inputs = s.inputs ∧ t.active = s.active ∧
    ∀ j, j ≠ s.active → t.decoder? j = s.decoder? j

end Sys2Proof.Machine
end

