-- ==== Sys2Proof/Certificates/Slice0/Obligations.lean ====
section
/-! DEFINITION. The statements for the provers. Each docstring names the rules of spec/ the statement formalises.
Each holds for every value of the parameters of 00_scope R10 (they are a field of State) and for every answer of the
display sink (60_exceptions R143), except where the statement names a case. -/

open Sys2Proof Sys2Proof.Machine

/-! ### Encodings -/

/-- 30_encoding R66, R67: what each command word spells, by its value; the data bits of IDLE, RESET and RDCNT are
ignored, RDCNT is there only with the counter; and the canonical spellings. -/
def Obligations.CommandWordsByValue : Prop :=
  (∀ (counter : Bool) (w : CommandWord),
    (w.toNat ≤ 0x0FF → decodeCommand counter w = .ok .idle) ∧
    (∀ b : Byte, w.toNat = 0x100 + b.toNat → decodeCommand counter w = .ok (.feed b)) ∧
    (0x200 ≤ w.toNat → w.toNat ≤ 0x2FF → decodeCommand counter w = .ok .reset) ∧
    (0x300 ≤ w.toNat → decodeCommand true w = .ok .rdcnt ∧ decodeCommand false w = .error .noSuchCommand)) ∧
  encode .idle = .command 0x000 ∧ encode .reset = .command 0x200 ∧ encode .rdcnt = .command 0x300

/-- 30_encoding R70: without the counter the words `0x300`..`0x3FF` spell no command and are refused, with it they are
RDCNT, and no other word is illegal. The refusal is of the whole step, so no state follows from it. -/
def Obligations.OnlyCounterWordsAreIllegal : Prop :=
  ∀ (s : State) (id : Nat) (w : CommandWord) (rest : List Input), s.inputs = .command id w :: rest →
    (s.params.hasDiscardCounter = false → 0x300 ≤ w.toNat → step s = .refused (.illegalCommandWord w)) ∧
    (s.params.hasDiscardCounter = true → 0x300 ≤ w.toNat → decodeCommand s.params.hasDiscardCounter w = .ok .rdcnt) ∧
    (w.toNat < 0x300 → ∃ i, decodeCommand s.params.hasDiscardCounter w = .ok i)

/-- 30_encoding R72: the first-match table of the feed key. Every key matches a row; the first row that matches gives
the behaviour (a key with `key[11] = 0` has the waiting behaviour whatever its count bits, R73); and what each match
says of the state, in words. -/
def Obligations.FeedKeyTable : Prop :=
  (∀ key : FeedKey, (selectCase key).isSome = true) ∧
  (∀ key : FeedKey,
    (key &&& 0xF00 = 0xF00 → decodeKey key = .feedLast (keyByte key)) ∧
    (key &&& 0xF00 ≠ 0xF00 → key &&& 0x800 = 0x800 → decodeKey key = .feedRow (keyCount key) (keyByte key)) ∧
    (key &&& 0x8FF = 0x0AA → decodeKey key = .feedHdr) ∧
    (key &&& 0x8FF ≠ 0x0AA → key &&& 0x800 = 0x000 → decodeKey key = .feedDiscard (keyByte key))) ∧
  (∀ (cnt : BitVec 3) (b : Byte),
    decodeKey (makeKey 1 cnt b) = (if cnt = 7 then .feedLast b else .feedRow cnt b) ∧
    decodeKey (makeKey 0 cnt b) = (if b = 0xAA then .feedHdr else .feedDiscard b)) ∧
  (∀ (d : Decoder) (b : Byte), d.Stable →
    (d.feedKey b &&& 0xF00 = 0xF00 ↔ d.mode = .collecting ∧ d.cnt.toNat = 7) ∧
    (d.feedKey b &&& 0x800 = 0x800 ↔ d.mode = .collecting) ∧
    (d.feedKey b &&& 0x8FF = 0x0AA ↔ d.mode = .waiting ∧ b = 0xAA) ∧
    (d.feedKey b &&& 0x800 = 0x000 ↔ d.mode = .waiting))

/-- 30_encoding R65, R71: in every stable state the feed key's fields are the mode, the whole count and the byte, the
count field is 0 while waiting, and the byte's class is the one its state and value give, with the class's behaviour. -/
def Obligations.ByteClassesSelectBehaviours : Prop :=
  ∀ (d : Decoder) (b : Byte), d.Stable →
    (keySync (d.feedKey b) = 1 ↔ d.mode = .collecting) ∧ (keyCount (d.feedKey b)).toNat = d.cnt.toNat ∧
    keyByte (d.feedKey b) = b ∧ (keySync (d.feedKey b) = 0 → keyCount (d.feedKey b) = 0) ∧
    (d.mode = .waiting → b = 0xAA → d.byteClass b = .header ∧ decodeKey (d.feedKey b) = .feedHdr) ∧
    (d.mode = .waiting → b ≠ 0xAA → d.byteClass b = .noise ∧ decodeKey (d.feedKey b) = .feedDiscard b) ∧
    (d.mode = .collecting → d.cnt.toNat ≤ 6 →
      d.byteClass b = .rowByte ∧ decodeKey (d.feedKey b) = .feedRow (keyCount (d.feedKey b)) b) ∧
    (d.mode = .collecting → d.cnt.toNat = 7 →
      d.byteClass b = .lastRowByte ∧ decodeKey (d.feedKey b) = .feedLast b)

/-- Decoding the words of a well-formed instruction gives it back, with every operand; without the discard counter
this is so for every instruction but RDCNT (30_encoding sections 2 to 4). -/
def Obligations.DecodeInvertsEncode : Prop :=
  ∀ i : Instr, i.wellFormed = true →
    decode true (encode i) = .ok i ∧ (i ≠ .rdcnt → decode false (encode i) = .ok i)

/-- The other direction: a command word that carries an operand, or is in the canonical spelling, and a feed key that
can occur, are the words of the instruction they decode to, which is well formed (30_encoding sections 2 and 3). -/
def Obligations.EncodeInvertsDecode : Prop :=
  (∀ (counter : Bool) (w : CommandWord) (i : Instr), decodeCommand counter w = .ok i →
    (opField w = 0b01#2 ∨ dataField w = 0) → encode i = .command w) ∧
  (∀ key : FeedKey, (keySync key = 1 ∨ keyCount key = 0) →
    encode (decodeKey key) = .key key ∧ (decodeKey key).wellFormed = true)

/-- Words written out from the encodings of 30_encoding R66 and R72 decode to their instructions. -/
def Obligations.WrittenOutWordsDecode : Prop :=
  decode false (.command 0b00_0000_0000#10) = .ok .idle ∧
  decode false (.command 0b01_1010_1010#10) = .ok (.feed 0xAA) ∧
  decode false (.command 0b10_1010_1010#10) = .ok .reset ∧
  decode true (.command 0b11_0000_0000#10) = .ok .rdcnt ∧
  decode false (.key 0b0000_1010_1010#12) = .ok .feedHdr ∧
  decode false (.key 0b0000_0101_0101#12) = .ok (.feedDiscard 0x55) ∧
  decode false (.key 0b1011_1010_1010#12) = .ok (.feedRow 3 0xAA) ∧
  decode false (.key 0b1111_0000_1000#12) = .ok (.feedLast 0x08)

/-! ### Steps -/

/-- A step runs the instruction of the next input (40_decoder section 1, 41_encoder): a command goes to the instance it
addresses, a request to the encoder, the input is taken, and with nothing issued nothing happens (00_scope R12, case b:
that `step` then answers the unchanged state is the model's choice, log entry 2). -/
def Obligations.StepRunsTheDecodedInstruction : Prop :=
  ∀ (s : State) (rest : List Input),
    (∀ (id : Nat) (w : CommandWord) (i : Instr), s.inputs = .command id w :: rest →
      decodeCommand s.params.hasDiscardCounter w = .ok i →
      step s = exec i { s with inputs := rest, active := id }) ∧
    (∀ data : List Byte, s.inputs = .request data :: rest → step s = exec (.encode data) { s with inputs := rest }) ∧
    (s.inputs = [] → step s = .next s)

/-- An instance that was never constructed admits no command but RESET (40_decoder section 1, 70_reset section 2). -/
def Obligations.UnconstructedInstanceIsRefused : Prop :=
  ∀ (i : Instr) (s : State), s.decoder? s.active = none → i ≠ .reset → (∀ data, i ≠ .encode data) →
    exec i s = .refused (.notConstructed s.active)

/-! ### The result of each instruction -/

/-- 40_decoder R81, 10_state R30: RESET gives every element its reset value, on any instance, constructed or not and in
any state; there are no events, and two RESETs leave the state of one. -/
def Obligations.ResetConstructs : Prop :=
  ∀ s : State,
    encode .reset = .command 0x200 ∧
    ∃ t u, exec .reset s = .next t ∧ s.SameElsewhere t ∧
      t.decoder? s.active = some
        { mode := .waiting, cnt := 0, row := Vector.replicate 8 none,
          discards := if s.params.hasDiscardCounter then some 0 else none } ∧
      t.sink = s.sink ∧ t.outputs = s.outputs ++ [⟨.decoder s.active, .nothing, .ok, []⟩] ∧
      exec .reset t = .next u ∧ t.SameElsewhere u ∧ u.decoder? s.active = t.decoder? s.active

/-- 40_decoder R82: IDLE changes nothing. -/
def Obligations.IdleChangesNothing : Prop :=
  encode .idle = .command 0x000 ∧
  ∀ (s : State) (d : Decoder), s.decoder? s.active = some d →
    exec .idle s = .next { s with outputs := s.outputs ++ [⟨.decoder s.active, .nothing, .ok, []⟩] }

/-- 40_decoder R84: a header consumed while waiting starts a frame; a second one is row 0, not a header. -/
def Obligations.FeedHdrStartsFrame : Prop :=
  (∀ key : FeedKey, key &&& 0x8FF = 0x0AA → decodeKey key = .feedHdr) ∧
  ∀ (s : State) (d : Decoder), s.decoder? s.active = some d → d.mode = .waiting →
    ∃ t, exec .feedHdr s = .next t ∧ s.SameElsewhere t ∧
      t.decoder? s.active = some { d with mode := .collecting, cnt := 0, row := Vector.replicate 8 none } ∧
      t.sink = s.sink ∧ t.outputs = s.outputs ++ [⟨.decoder s.active, .nothing, .ok, []⟩] ∧
      ∃ u e, exec (.feed 0xAA) t = .next u ∧ u.decoder? s.active = some e ∧ e.Holds [0xAA]

/-- 40_decoder R85, R95: any other byte consumed while waiting is dropped, and counted where there is a counter,
modulo two to the width. -/
def Obligations.FeedDiscardDropsByte : Prop :=
  (∀ key : FeedKey, key &&& 0x8FF ≠ 0x0AA → key &&& 0x800 = 0x000 → decodeKey key = .feedDiscard (keyByte key)) ∧
  ∀ (s : State) (d : Decoder) (b : Byte), s.decoder? s.active = some d → d.mode = .waiting → b ≠ 0xAA →
    ∃ t, exec (.feedDiscard b) s = .next t ∧ s.SameElsewhere t ∧
      t.decoder? s.active =
        some { d with discards := d.discards.map fun n => (n + 1) % 2 ^ s.params.discardCounterWidth } ∧
      t.sink = s.sink ∧ t.outputs = s.outputs ++ [⟨.decoder s.active, .nothing, .ok, []⟩]

/-- 40_decoder R86: a row byte, the header's value included, is stored in the lowest empty slot. -/
def Obligations.FeedRowStoresByte : Prop :=
  (∀ key : FeedKey, key &&& 0xF00 ≠ 0xF00 → key &&& 0x800 = 0x800 →
    decodeKey key = .feedRow (keyCount key) (keyByte key)) ∧
  ∀ (s : State) (d : Decoder) (v : List Byte) (k : BitVec 3) (b : Byte),
    s.decoder? s.active = some d → d.Holds v → k.toNat = v.length → v.length ≤ 6 →
    ∃ t d', exec (.feedRow k b) s = .next t ∧ s.SameElsewhere t ∧
      t.decoder? s.active = some d' ∧ d'.Holds (v ++ [b]) ∧ d'.discards = d.discards ∧
      t.sink = s.sink ∧ t.outputs = s.outputs ++ [⟨.decoder s.active, .nothing, .ok, []⟩]

/-- 40_decoder R87, R91: the eighth row byte completes the Bitmap, which is the step's result whatever the sink
answers, with `Deliver`'s status and events; the decoder is back in WAITING with an empty buffer and the counter as it
was, and no instruction but FEED.LAST, and the FEED that runs it, has events. -/
def Obligations.FeedLastCompletesBitmap : Prop :=
  (∀ key : FeedKey, key &&& 0xF00 = 0xF00 → decodeKey key = .feedLast (keyByte key)) ∧
  (∀ (s : State) (d : Decoder) (v : List Byte) (b : Byte),
    s.decoder? s.active = some d → d.Holds v → v.length = 7 →
    ∃ t status, exec (.feedLast b) s = .next t ∧ s.SameElsewhere t ∧
      t.decoder? s.active = some { d with mode := .waiting, cnt := 0, row := Vector.replicate 8 none } ∧
      t.outputs = s.outputs ++ [⟨.decoder s.active, .bitmap (v ++ [b]), status,
        (deliver s.params.sinkErrorPolicy (v ++ [b]) s.sink).events⟩] ∧
      t.sink = (deliver s.params.sinkErrorPolicy (v ++ [b]) s.sink).sink ∧
      status = (deliver s.params.sinkErrorPolicy (v ++ [b]) s.sink).status ∧
      (status = .ok ∨ ∃ r, r ≤ 7 ∧ status = .sinkRejected r)) ∧
  ∀ (i : Instr) (s t : State) (r : StepRecord), exec i s = .next t → t.outputs = s.outputs ++ [r] → r.events ≠ [] →
    ∃ b, i = .feedLast b ∨ (i = .feed b ∧ exec (.feed b) s = exec (.feedLast b) s)

/-- 40_decoder R88: with every call accepted, the eight rows go out in ascending order, device 0, values unchanged. -/
def Obligations.DeliveryWritesEightRows : Prop :=
  ∀ (s : State) (d : Decoder) (v : List Byte) (b : Byte),
    s.decoder? s.active = some d → d.Holds v → v.length = 7 → (∀ r, r ≤ 7 → s.sink.answer r = .accept) →
    ∃ t, exec (.feedLast b) s = .next t ∧
      t.outputs = s.outputs ++ [⟨.decoder s.active, .bitmap (v ++ [b]), .ok,
        (v ++ [b]).mapIdx fun r value => ⟨0, r, value, .accept⟩⟩] ∧
      t.sink = ⟨s.sink.answers.drop 8, s.sink.calls + 8⟩

/-- 40_decoder R89: under ABORT_REMAINING the first rejected call is the last of the delivery and names the status. -/
def Obligations.AbortStopsAtFirstRejection : Prop :=
  ∀ (s : State) (d : Decoder) (v : List Byte) (b : Byte) (r : Nat),
    s.params.sinkErrorPolicy = .abortRemaining → s.decoder? s.active = some d → d.Holds v → v.length = 7 →
    r ≤ 7 → (∀ j, j < r → s.sink.answer j = .accept) → s.sink.answer r = .reject →
    ∃ t, exec (.feedLast b) s = .next t ∧
      t.outputs = s.outputs ++ [⟨.decoder s.active, .bitmap (v ++ [b]), .sinkRejected r,
        (rowCalls (v ++ [b]) s.sink).take (r + 1)⟩] ∧
      t.sink = ⟨s.sink.answers.drop (r + 1), s.sink.calls + (r + 1)⟩

/-- 40_decoder R90: under CONTINUE all eight calls are issued, once each, and the lowest rejected row is the status. -/
def Obligations.ContinueIssuesEveryCall : Prop :=
  ∀ (s : State) (d : Decoder) (v : List Byte) (b : Byte) (r : Nat),
    s.params.sinkErrorPolicy = .continueRows → s.decoder? s.active = some d → d.Holds v → v.length = 7 →
    r ≤ 7 → (∀ j, j < r → s.sink.answer j = .accept) → s.sink.answer r = .reject →
    ∃ t, exec (.feedLast b) s = .next t ∧
      t.outputs = s.outputs ++
        [⟨.decoder s.active, .bitmap (v ++ [b]), .sinkRejected r, rowCalls (v ++ [b]) s.sink⟩] ∧
      t.sink = ⟨s.sink.answers.drop 8, s.sink.calls + 8⟩

/-- 40_decoder R83: FEED runs exactly one of its four cases, the one its feed key selects, and in every stable state
it completes. The case split of 40_decoder section 4 and the table of 30_encoding section 3 are one behaviour. -/
def Obligations.FeedDispatches : Prop :=
  (∀ (counter : Bool) (b : Byte) (w : CommandWord), w.toNat = 0x100 + b.toNat →
    decodeCommand counter w = .ok (.feed b)) ∧
  ∀ (s : State) (d : Decoder) (b : Byte), s.decoder? s.active = some d → d.Stable →
    (d.mode = .waiting → b = 0xAA → exec (.feed b) s = exec .feedHdr s) ∧
    (d.mode = .waiting → b ≠ 0xAA → exec (.feed b) s = exec (.feedDiscard b) s) ∧
    (d.mode = .collecting → d.cnt.toNat = 7 → exec (.feed b) s = exec (.feedLast b) s) ∧
    (∀ k : BitVec 3, d.mode = .collecting → d.cnt.toNat ≤ 6 → k.toNat = d.cnt.toNat →
      exec (.feed b) s = exec (.feedRow k b) s) ∧
    exec (.feed b) s = exec (decodeKey (d.feedKey b)) s ∧
    ∃ t, exec (.feed b) s = .next t ∧ s.SameElsewhere t

/-- 40_decoder R96: RDCNT gives the counter's value and changes nothing; without a counter it is refused. -/
def Obligations.RdcntReadsCounter : Prop :=
  encode .rdcnt = .command 0x300 ∧
  (∀ (w : CommandWord), 0x300 ≤ w.toNat →
    decodeCommand true w = .ok .rdcnt ∧ decodeCommand false w = .error .noSuchCommand) ∧
  ∀ (s : State) (d : Decoder), s.decoder? s.active = some d →
    (∀ n, d.discards = some n → exec .rdcnt s =
      .next { s with outputs := s.outputs ++ [⟨.decoder s.active, .count n, .ok, []⟩] }) ∧
    (d.discards = none → exec .rdcnt s = .refused .noDiscardCounter)

/-- 41_encoder R110, R112, R113, R114: eight bytes give the header and the bytes, unchanged and in order; any other
length gives the error and no byte; nothing else changes. -/
def Obligations.EncodeResult : Prop :=
  ∀ (s : State) (data : List Byte),
    (data.length = 8 → exec (.encode data) s =
      .next { s with outputs := s.outputs ++ [⟨.encoder, .frame (0xAA :: data), .ok, []⟩] }) ∧
    (data.length ≠ 8 → exec (.encode data) s =
      .next { s with outputs := s.outputs ++ [⟨.encoder, .nothing, .invalidBitmapLength data.length, []⟩] })

/-- 41_encoder R111: ENCODE is a pure function: two machines in any two states are given the same record, and only the
record is added. -/
def Obligations.EncodeIsPure : Prop :=
  ∀ (data : List Byte), ∃ result status, ∀ s : State,
    exec (.encode data) s = .next { s with outputs := s.outputs ++ [⟨.encoder, result, status, []⟩] }

/-- A feed-key behaviour the state does not select has no step: it is refused by name. The model's choice, log entry 8
(30_encoding section 3 gives the behaviours by their conditions). -/
def Obligations.UnselectedBehaviourIsRefused : Prop :=
  ∀ (s : State) (d : Decoder) (b : Byte) (k : BitVec 3), s.decoder? s.active = some d →
    (d.mode = .collecting → exec .feedHdr s = .refused .keyNotSelected) ∧
    (d.mode = .collecting ∨ b = 0xAA → exec (.feedDiscard b) s = .refused .keyNotSelected) ∧
    (d.mode = .waiting ∨ d.cnt.toNat ≠ k.toNat ∨ k = 7 → exec (.feedRow k b) s = .refused .keyNotSelected) ∧
    (d.mode = .waiting ∨ d.cnt.toNat ≠ 7 → exec (.feedLast b) s = .refused .keyNotSelected)

/-- A read of a slot that holds no value faults, and names the slot (00_scope section 5, 93 row 7). A stable state has
no such slot below its count: `SoundMachineNeverFaults`. -/
def Obligations.UnwrittenSlotFaults : Prop :=
  ∀ (s : State) (d : Decoder) (b : Byte) (i : Nat), s.decoder? s.active = some d →
    d.mode = .collecting → d.cnt.toNat = 7 → i ≤ 6 → d.memRead i = none →
    (∀ j, j < i → (d.memRead j).isSome = true) → exec (.feedLast b) s = .fault (.unwrittenSlot i)

/-! ### Frames -/

/-- What no instruction changes: the parameters, the inputs to come, the address, every other instance; and every
instruction adds exactly one record, of its own unit (20_memory section 3, 10_state section 4). -/
def Obligations.EveryInstructionIsFramed : Prop :=
  ∀ (i : Instr) (s t : State), exec i s = .next t →
    s.SameElsewhere t ∧ ∃ r : StepRecord, t.outputs = s.outputs ++ [r] ∧
      (r.unit = .encoder ↔ ∃ data, i = .encode data) ∧ (r.unit ≠ .encoder → r.unit = .decoder s.active)

/-- `S.mode` is written by RESET, FEED.HDR and FEED.LAST and by nothing else (10_state section 1). -/
def Obligations.ModeIsWrittenOnlyByThree : Prop :=
  ∀ (i : Instr) (s t : State) (d d' : Decoder), exec i s = .next t →
    s.decoder? s.active = some d → t.decoder? s.active = some d' → d'.mode ≠ d.mode →
    (i = .reset ∧ d'.mode = .waiting) ∨
    ((i = .feedHdr ∨ i = .feed 0xAA) ∧ d'.mode = .collecting) ∨
    ((∃ b, i = .feedLast b ∨ i = .feed b) ∧ d.cnt.toNat = 7 ∧ d'.mode = .waiting)

/-- 40_decoder R95: the discard counter grows by one, modulo two to the width, at a discarded byte; RESET alone clears
it; no other instruction changes it. -/
def Obligations.CounterIsWrittenOnlyByDiscardAndReset : Prop :=
  ∀ (i : Instr) (s t : State) (d d' : Decoder), exec i s = .next t →
    s.decoder? s.active = some d → t.decoder? s.active = some d' →
    ((∃ b, (i = .feedDiscard b ∨ i = .feed b) ∧ b ≠ 0xAA ∧ d.mode = .waiting) ∧
      d'.discards = d.discards.map fun n => (n + 1) % 2 ^ s.params.discardCounterWidth) ∨
    (i = .reset ∧ d'.discards = if s.params.hasDiscardCounter then some 0 else none) ∨
    ((¬ ∃ b, (i = .feedDiscard b ∨ i = .feed b) ∧ b ≠ 0xAA ∧ d.mode = .waiting) ∧ i ≠ .reset ∧
      d'.discards = d.discards)

/-- 40_decoder R93: a step makes at most eight `writeRow` calls, in ascending row order from 0 and to device 0, and
only the FEED that completes a frame makes any. -/
def Obligations.OnlyCompletionCallsTheSink : Prop :=
  ∀ (i : Instr) (s t : State), exec i s = .next t →
    ∃ r : StepRecord, t.outputs = s.outputs ++ [r] ∧ r.events.length ≤ 8 ∧
      (∀ (k : Nat) (e : WriteRow), r.events[k]? = some e → e.deviceIndex = 0 ∧ e.rowIndex = k) ∧
      t.sink = ⟨s.sink.answers.drop r.events.length, s.sink.calls + r.events.length⟩ ∧
      (r.events ≠ [] → (∃ b, i = .feedLast b ∨ i = .feed b) ∧
        ∃ d, s.decoder? s.active = some d ∧ d.mode = .collecting ∧ d.cnt.toNat = 7)

/-- 30_encoding R62: no partial Bitmap is ever handed out: a step's Bitmap has exactly eight bytes, and every row it
writes is that Bitmap's row. -/
def Obligations.BitmapsAreWhole : Prop :=
  ∀ (i : Instr) (s t : State), exec i s = .next t →
    ∃ r : StepRecord, t.outputs = s.outputs ++ [r] ∧
      (∀ B, r.result = .bitmap B → B.length = 8) ∧
      (∀ e ∈ r.events, ∃ B, r.result = .bitmap B ∧ B[e.rowIndex]? = some e.rowValue)

/-- 60_exceptions R140: the statuses, their codes, who raises each, exactly when, and what it records. -/
def Obligations.StatusesAndTheirCauses : Prop :=
  (Status.ok.code = 0 ∧ (∀ n, (Status.invalidBitmapLength n).code = 1) ∧ ∀ r, (Status.sinkRejected r).code = 2) ∧
  ∀ (i : Instr) (s t : State), exec i s = .next t →
    ∃ r : StepRecord, t.outputs = s.outputs ++ [r] ∧
      (r.status = .ok ↔ (∀ data, i = .encode data → data.length = 8) ∧ ∀ e ∈ r.events, e.answer = .accept) ∧
      (∀ n, r.status = .invalidBitmapLength n ↔ n ≠ 8 ∧ ∃ data, i = .encode data ∧ data.length = n) ∧
      (∀ row, r.status = .sinkRejected row ↔
        (∃ e, r.events[row]? = some e ∧ e.answer = .reject ∧ e.rowIndex = row) ∧
          ∀ (j : Nat) (e : WriteRow), j < row → r.events[j]? = some e → e.answer = .accept) ∧
      (r.events ≠ [] → ∃ b, i = .feedLast b ∨ (i = .feed b ∧ exec (.feed b) s = exec (.feedLast b) s))

/-- An error leaves nothing behind (60_exceptions section 3): what any instruction does, faults and refusals included,
does not depend on the results and statuses of the steps before it. -/
def Obligations.EarlierStatusesChangeNothing : Prop :=
  ∀ (i : Instr) (s : State) (earlier : List StepRecord),
    (∀ t, exec i s = .next t → ∃ r, t.outputs = s.outputs ++ [r] ∧
      exec i { s with outputs := earlier } = .next { t with outputs := earlier ++ [r] }) ∧
    (∀ e, exec i s = .fault e → exec i { s with outputs := earlier } = .fault e) ∧
    (∀ e, exec i s = .refused e → exec i { s with outputs := earlier } = .refused e)

/-- 40_decoder R94: in COLLECTING_ROWS a byte's value never steers the framing: two FEEDs of any two bytes leave the
same mode and the same count, and a frame not yet complete stays in progress. -/
def Obligations.RowValuesNeverSteerFraming : Prop :=
  ∀ (s : State) (d : Decoder) (b b' : Byte), s.decoder? s.active = some d → d.Stable → d.mode = .collecting →
    ∃ t t' e e', exec (.feed b) s = .next t ∧ exec (.feed b') s = .next t' ∧
      t.decoder? s.active = some e ∧ t'.decoder? s.active = some e' ∧
      e.mode = e'.mode ∧ e.cnt = e'.cnt ∧
      (d.cnt.toNat ≤ 6 → e.mode = .collecting ∧ e.cnt.toNat = d.cnt.toNat + 1)

/-! ### Invariants -/

/-- The machine after reset meets the invariant (10_state R27, R30; the values of the model's own fields are log
entries 2, 5, 6 and 7). -/
def Obligations.ResetMeetsInvariant : Prop :=
  State.reset.Inv ∧
    State.reset.decoder? 0 = some
      { mode := .waiting, cnt := 0, row := Vector.replicate 8 none, discards := none }

/-- 10_state R27: every step of a machine that meets the invariant leaves one that meets it: each instance is waiting
with count 0 and an empty buffer, or collecting with exactly its first `cnt` slots written, and the counters keep
their bounds. -/
def Obligations.StepKeepsInvariant : Prop :=
  ∀ s t : State, s.Inv → step s = .next t → t.Inv

/-- 10_state R28: a machine that meets the invariant never reads a slot that holds no value, and stops only where the
spec gives no step: at a word that spells no command and at an instance that was never constructed. -/
def Obligations.SoundMachineNeverFaults : Prop :=
  ∀ s : State, s.Inv →
    (∀ e, step s ≠ .fault e) ∧
    (∀ e, step s = .refused e → ∃ id w rest, s.inputs = .command id w :: rest ∧
      ((e = .illegalCommandWord w ∧ s.params.hasDiscardCounter = false ∧ 0x300 ≤ w.toNat) ∨
       (e = .notConstructed id ∧ s.decoder? id = none)))

/-- Every command may be issued at any time (60_exceptions section 4, 42_link section 2): on a machine that meets the
invariant a legal word to a constructed instance, RESET to any instance and every request complete. -/
def Obligations.EveryLegalInputCompletes : Prop :=
  ∀ (s : State) (rest : List Input), s.Inv →
    (∀ id w, s.inputs = .command id w :: rest → (s.params.hasDiscardCounter = true ∨ w.toNat < 0x300) →
      ((s.decoder? id).isSome = true ∨ (0x200 ≤ w.toNat ∧ w.toNat ≤ 0x2FF)) → ∃ t, step s = .next t) ∧
    (∀ data, s.inputs = .request data :: rest → ∃ t, step s = .next t)

/-- 10_state R29: the list view carries the same information as the count and the slots. -/
def Obligations.ListViewIsFaithful : Prop :=
  ∀ d : Decoder, d.Stable →
    d.rows.length = d.cnt.toNat ∧
    (∀ i, i < d.cnt.toNat → d.memRead i = d.rows[i]?) ∧
    (d.mode = .collecting → d.Holds d.rows) ∧
    ∀ e : Decoder, e.Stable → e.view = d.view → e.framing = d.framing

/-! ### Link laws -/

/-- 42_link R121: fed to a waiting instance, any stream leaves the state and gives the deliveries of `Decode`. -/
def Obligations.DecoderComputesStreamFunction : Prop :=
  ∀ (s : State) (id : Nat) (d : Decoder) (bytes : List Byte), s.decoder? id = some d → d.IsWaiting →
    ∃ t e, feedBytes id bytes s = .next t ∧ t.decoder? id = some e ∧ e.Stable ∧
      e.view = (decodeStream bytes).1 ∧ t.deliveries id = s.deliveries id ++ (decodeStream bytes).2

/-- 42_link R124: completion from a frame in progress. -/
def Obligations.FrameInProgressCompletes : Prop :=
  ∀ (s : State) (id : Nat) (d : Decoder) (v bytes : List Byte), s.decoder? id = some d → d.Holds v →
    (bytes.length = 8 - v.length → ∃ t e, feedBytes id bytes s = .next t ∧ t.decoder? id = some e ∧
      e.IsWaiting ∧ t.deliveries id = s.deliveries id ++ [v ++ bytes]) ∧
    (bytes.length < 8 - v.length → ∃ t e, feedBytes id bytes s = .next t ∧ t.decoder? id = some e ∧
      e.Holds (v ++ bytes) ∧ t.deliveries id = s.deliveries id)

/-- 42_link R125: round trip. ENCODE of eight bytes gives a frame; its nine bytes fed to any waiting instance, with an
accepting sink, give one delivery, of the same eight bytes, at the ninth FEED. -/
def Obligations.RoundTrip : Prop :=
  ∀ (s : State) (id : Nat) (d : Decoder) (B : List Byte), s.decoder? id = some d → d.IsWaiting → B.length = 8 →
    (∀ r, r ≤ 7 → s.sink.answer r = .accept) →
    exec (.encode B) s = .next { s with outputs := s.outputs ++ [⟨.encoder, .frame (0xAA :: B), .ok, []⟩] } ∧
    ∃ t e, feedBytes id (0xAA :: B) s = .next t ∧ t.decoder? id = some e ∧ e.IsWaiting ∧
      t.deliveries id = s.deliveries id ++ [B] ∧
      t.outputs = s.outputs ++ List.replicate 8 ⟨.decoder id, .nothing, .ok, []⟩ ++
        [⟨.decoder id, .bitmap B, .ok, B.mapIdx fun r value => ⟨0, r, value, .accept⟩⟩]

/-- 42_link R126: the frames are exactly the nine-byte lists that start with the header, each from one Bitmap, and
frames sent one after another decode one by one, with noise between them or not. -/
def Obligations.EncoderAndDecoderAreInverse : Prop :=
  (∀ f : List Byte, (∃ B, encodeRequest B = (.frame f, .ok)) ↔ f.length = 9 ∧ f.head? = some 0xAA) ∧
  (∀ B f, encodeRequest B = (.frame f, .ok) → f = 0xAA :: B) ∧
  ∀ (s : State) (id : Nat) (d : Decoder) (parts : List (List Byte × List Byte)) (tail : List Byte),
    s.decoder? id = some d → d.IsWaiting →
    (∀ p ∈ parts, 0xAA ∉ p.1 ∧ p.2.length = 8) → 0xAA ∉ tail →
    ∃ t e, feedBytes id ((parts.flatMap fun p => p.1 ++ frameOf p.2) ++ tail) s = .next t ∧
      t.decoder? id = some e ∧ e.IsWaiting ∧ t.deliveries id = s.deliveries id ++ parts.map (·.2)

/-- 42_link R130: noise without a header gives no event, no error and no delivery, is counted where there is a counter,
and does not disturb the frame after it. -/
def Obligations.NoiseIsHarmless : Prop :=
  ∀ (s : State) (id : Nat) (d : Decoder) (noise B : List Byte), s.decoder? id = some d → d.IsWaiting →
    d.CounterSound s.params → 0xAA ∉ noise → B.length = 8 →
    (∃ t, feedBytes id noise s = .next t ∧
      t.decoder? id = some
        { d with discards := d.discards.map fun n => (n + noise.length) % 2 ^ s.params.discardCounterWidth } ∧
      t.outputs = s.outputs ++ List.replicate noise.length ⟨.decoder id, .nothing, .ok, []⟩) ∧
    ∃ t e, feedBytes id (noise ++ 0xAA :: B) s = .next t ∧ t.decoder? id = some e ∧ e.IsWaiting ∧
      t.deliveries id = s.deliveries id ++ [B] ∧
      e.discards = d.discards.map fun n => (n + noise.length) % 2 ^ s.params.discardCounterWidth

/-- 42_link R133: no false restart, as a run: a row byte with the header's value is data. -/
def Obligations.NoFalseRestart : Prop :=
  ∀ (s : State) (id : Nat) (d : Decoder) (r0 r1 r2 r4 r5 r6 r7 : Byte), s.decoder? id = some d → d.IsWaiting →
    ∃ t e, feedBytes id [0xAA, r0, r1, r2, 0xAA, r4, r5, r6, r7] s = .next t ∧ t.decoder? id = some e ∧
      e.IsWaiting ∧ t.deliveries id = s.deliveries id ++ [[r0, r1, r2, 0xAA, r4, r5, r6, r7]]

/-- A lost row byte misframes (42_link section 4, R127 way 1): the second frame's header is delivered as the first
frame's last row, and the second frame is lost. -/
def Obligations.LostRowByteMisframes : Prop :=
  ∀ (s : State) (id : Nat) (d : Decoder) (A B : List Byte), s.decoder? id = some d → d.IsWaiting →
    A.length = 8 → B.length = 8 → 0xAA ∉ B →
    ∃ t e, feedBytes id (0xAA :: A.take 7 ++ frameOf B) s = .next t ∧ t.decoder? id = some e ∧ e.IsWaiting ∧
      t.deliveries id = s.deliveries id ++ [A.take 7 ++ [0xAA]]

/-- Misframing can be permanent (42_link section 4, R128): repeated copies of one frame, entered at a row byte with the
header's value, deliver the rotated Bitmap every time. The rule's last words, that no delivery equals the Bitmap sent,
are not stated: a Bitmap of eight header bytes is its own rotation (log entry 12). -/
def Obligations.MisframingCanLastForever : Prop :=
  ∀ (s : State) (id : Nat) (d : Decoder) (x : List Byte) (j copies : Nat), s.decoder? id = some d → d.IsWaiting →
    x.length = 8 → x[j]? = some 0xAA →
    ∃ t e, feedBytes id ((((List.replicate (copies + 1) (frameOf x)).flatten).drop (j + 1)).take (9 * copies)) s =
        .next t ∧
      t.decoder? id = some e ∧ e.IsWaiting ∧
      t.deliveries id = s.deliveries id ++ List.replicate copies (x.drop (j + 1) ++ [0xAA] ++ x.take j)

/-- 42_link R129: bounded recovery. A suffix of intact frames without a row byte of the header's value, from any stable
state: within 17 bytes a genuine header (of frame `j`) comes to a waiting decoder, at most one delivery comes before
it, and from that header on every frame is delivered, in order, none skipped. -/
def Obligations.RecoveryIsBounded : Prop :=
  ∀ (s : State) (id : Nat) (d : Decoder) (frames : List (List Byte)) (offset : Nat),
    s.decoder? id = some d → d.Stable → (∀ B ∈ frames, B.length = 8 ∧ 0xAA ∉ B) →
    offset + 17 ≤ 9 * frames.length →
    ∃ (j : Nat) (before : List (List Byte)), before.length ≤ 1 ∧ offset ≤ 9 * j ∧ 9 * j + 1 ≤ offset + 17 ∧
      (∃ t e, feedBytes id (((frames.flatMap frameOf).drop offset).take (9 * j - offset)) s = .next t ∧
        t.decoder? id = some e ∧ e.IsWaiting ∧ t.deliveries id = s.deliveries id ++ before) ∧
      ∃ t e, feedBytes id ((frames.flatMap frameOf).drop offset) s = .next t ∧ t.decoder? id = some e ∧
        e.IsWaiting ∧ t.deliveries id = s.deliveries id ++ before ++ frames.drop j

/-- 42_link R131: IDLE commands, in any number and at any place, change no run. Taken out of a run, they leave the
instances, the sink, the deliveries and, in order, every record that has a result or an error status; the records
without either (an IDLE's, and equally those of RESET, FEED.HDR, FEED.DISCARD and FEED.ROW) are left out of that
comparison. Put into a run, to instances that are constructed, they stop nothing; and a header and five rows, any gap,
and three rows deliver one Bitmap of all eight. -/
def Obligations.IdlesChangeNoRun : Prop :=
  (∀ (s t : State) (xs : List Input), runInputs xs s = .next t →
    ∃ u, runInputs (xs.filter fun x => !x.isIdle) s = .next u ∧ u.decoders = t.decoders ∧ u.sink = t.sink ∧
      (∀ id, u.deliveries id = t.deliveries id) ∧
      u.outputs.filter (fun r => r.result != .nothing || r.status != .ok) =
        t.outputs.filter (fun r => r.result != .nothing || r.status != .ok)) ∧
  (∀ (s u : State) (xs : List Input), runInputs (xs.filter fun x => !x.isIdle) s = .next u →
    (∀ (id : Nat) (w : CommandWord), Input.command id w ∈ xs → (Input.command id w).isIdle = true →
      (s.decoder? id).isSome = true) →
    ∃ t, runInputs xs s = .next t) ∧
  ∀ (s : State) (id gap : Nat) (d : Decoder) (v w : List Byte), s.decoder? id = some d → d.IsWaiting →
    v.length = 5 → w.length = 3 →
    ∃ t e, runInputs (feedInputs id (0xAA :: v) ++ List.replicate gap (.command id 0x000) ++ feedInputs id w) s =
        .next t ∧
      t.decoder? id = some e ∧ e.IsWaiting ∧ t.deliveries id = s.deliveries id ++ [v ++ w]

/-- 42_link R132: after a completed frame the framing state is that of a constructed decoder and the discard counter is
not cleared, and machines that differ only in discard counters give the same results, statuses and events to every later
input without RDCNT. -/
def Obligations.CompletedFrameIsLikeReset : Prop :=
  (∀ (s t : State) (b : Byte), exec (.feedLast b) s = .next t →
    (t.decoder? s.active).map Decoder.framing = some (Decoder.constructed s.params).framing ∧
    (t.decoder? s.active).map (·.discards) = (s.decoder? s.active).map (·.discards)) ∧
  ∀ (s s' : State) (xs : List Input), s.params = s'.params → s.sink = s'.sink →
    (∀ id, (s.decoder? id).map Decoder.framing = (s'.decoder? id).map Decoder.framing) →
    (∀ x ∈ xs, x.isRdcnt = false) →
    ∀ t, runInputs xs s = .next t → ∃ t' records, runInputs xs s' = .next t' ∧
      t.outputs = s.outputs ++ records ∧ t'.outputs = s'.outputs ++ records

/-- 10_state R31: instances share nothing. What an instance becomes and delivers in a run is what it becomes and
delivers when it alone is given its commands, whatever the others were given and whatever the sink answers. -/
def Obligations.InstancesAreIsolated : Prop :=
  ∀ (s t : State) (xs : List Input) (id : Nat) (sink : Sink), runInputs xs s = .next t →
    ∃ u, runInputs (xs.filter (Input.addresses id)) { s with sink := sink } = .next u ∧
      u.decoder? id = t.decoder? id ∧ u.deliveries id = t.deliveries id

/-- Steps of different units commute (20_memory section 4): two inputs to different units leave every instance the same
in either order. -/
def Obligations.DifferentUnitsCommute : Prop :=
  ∀ (s t : State) (x y : Input), (∀ id, ¬ (x.addresses id = true ∧ y.addresses id = true)) →
    runInputs [x, y] s = .next t →
    ∃ u, runInputs [y, x] s = .next u ∧ ∀ id, u.decoder? id = t.decoder? id ∧ u.deliveries id = t.deliveries id
end

