-- ==== Sys2Proof/Laws/Decode.lean ====
section
/-! SUPPORT. The fields of a command word and of a feed key: what is put together comes apart again, and every word and
every key is put together from its fields. -/

namespace Sys2Proof

/-! ### Command words -/

theorem opField_toNat (w : CommandWord) : (opField w).toNat = w.toNat / 256 := by
  have := w.isLt
  simp [opField, Nat.shiftRight_eq_div_pow]
  omega

theorem dataField_toNat (w : CommandWord) : (dataField w).toNat = w.toNat % 256 := by
  simp [dataField]

theorem makeCommand_toNat (op : BitVec 2) (data : Byte) :
    (makeCommand op data).toNat = 256 * op.toNat + data.toNat := by
  have := data.isLt
  refine (BitVec.toNat_append op data).trans ?_
  rw [← Nat.shiftLeft_add_eq_or_of_lt this, Nat.shiftLeft_eq]
  omega

@[simp] theorem opField_makeCommand (op : BitVec 2) (data : Byte) : opField (makeCommand op data) = op := by
  have := data.isLt
  refine BitVec.eq_of_toNat_eq ?_
  rw [opField_toNat, makeCommand_toNat]
  omega

@[simp] theorem dataField_makeCommand (op : BitVec 2) (data : Byte) : dataField (makeCommand op data) = data := by
  have := data.isLt
  refine BitVec.eq_of_toNat_eq ?_
  rw [dataField_toNat, makeCommand_toNat]
  omega

/-- A command word is its two fields. -/
theorem makeCommand_fields (w : CommandWord) : makeCommand (opField w) (dataField w) = w := by
  refine BitVec.eq_of_toNat_eq ?_
  rw [makeCommand_toNat, opField_toNat, dataField_toNat]
  omega

/-- The word of a FEED is that FEED on every machine (30_encoding R66, R68). -/
@[simp] theorem decodeCommand_feed (counter : Bool) (b : Byte) :
    decodeCommand counter (makeCommand 0b01#2 b) = .ok (.feed b) := by
  unfold decodeCommand
  rw [opField_makeCommand, dataField_makeCommand]
  rfl

/-! ### Feed keys -/

theorem keySync_toNat (key : FeedKey) : (keySync key).toNat = key.toNat / 2048 := by
  have := key.isLt
  simp [keySync, Nat.shiftRight_eq_div_pow]
  omega

theorem keyCount_toNat (key : FeedKey) : (keyCount key).toNat = key.toNat / 256 % 8 := by
  simp [keyCount, Nat.shiftRight_eq_div_pow]

theorem keyByte_toNat (key : FeedKey) : (keyByte key).toNat = key.toNat % 256 := by
  simp [keyByte]

theorem makeKey_toNat (sync : BitVec 1) (cnt : BitVec 3) (b : Byte) :
    (makeKey sync cnt b).toNat = 2048 * sync.toNat + 256 * cnt.toNat + b.toNat := by
  have hb := b.isLt
  have hc := cnt.isLt
  refine (BitVec.toNat_append (sync ++ cnt) b).trans ?_
  rw [← Nat.shiftLeft_add_eq_or_of_lt hb, Nat.shiftLeft_eq, BitVec.toNat_append,
    ← Nat.shiftLeft_add_eq_or_of_lt hc, Nat.shiftLeft_eq]
  omega

@[simp] theorem keySync_makeKey (sync : BitVec 1) (cnt : BitVec 3) (b : Byte) :
    keySync (makeKey sync cnt b) = sync := by
  have := b.isLt
  have := cnt.isLt
  refine BitVec.eq_of_toNat_eq ?_
  rw [keySync_toNat, makeKey_toNat]
  omega

@[simp] theorem keyCount_makeKey (sync : BitVec 1) (cnt : BitVec 3) (b : Byte) :
    keyCount (makeKey sync cnt b) = cnt := by
  have := b.isLt
  have := cnt.isLt
  refine BitVec.eq_of_toNat_eq ?_
  rw [keyCount_toNat, makeKey_toNat]
  omega

@[simp] theorem keyByte_makeKey (sync : BitVec 1) (cnt : BitVec 3) (b : Byte) :
    keyByte (makeKey sync cnt b) = b := by
  have := b.isLt
  refine BitVec.eq_of_toNat_eq ?_
  rw [keyByte_toNat, makeKey_toNat]
  omega

/-- A feed key is its three fields. -/
theorem makeKey_fields (key : FeedKey) : makeKey (keySync key) (keyCount key) (keyByte key) = key := by
  have := key.isLt
  refine BitVec.eq_of_toNat_eq ?_
  rw [makeKey_toNat, keySync_toNat, keyCount_toNat, keyByte_toNat]
  omega

/-- A claim about every key is a claim about every choice of its fields. -/
theorem forall_key {P : FeedKey → Prop} (h : ∀ sync cnt b, P (makeKey sync cnt b)) (key : FeedKey) : P key :=
  makeKey_fields key ▸ h _ _ _

/-- The table of 30_encoding R72 is total: some row matches every key. -/
theorem selectCase_isSome (key : FeedKey) : (selectCase key).isSome = true := by
  refine forall_key (P := fun key => (selectCase key).isSome = true) (fun sync cnt b => ?_) key
  have h : ∀ (x : Fin 2) (y : Fin 8) (z : Fin 256),
      (selectCase (makeKey (BitVec.ofFin x) (BitVec.ofFin y) (BitVec.ofFin z))).isSome = true := by decide +kernel
  exact h sync.toFin cnt.toFin b.toFin

end Sys2Proof
end

