-- ==== Sys2Proof/Laws/State.lean ====
section
/-! SUPPORT. What each update of the state changes and leaves: one lemma a field, true by definition. -/

namespace Sys2Proof.Machine

section Finish

variable (s : State) (u : UnitId) (r : StepResult) (st : Status) (es : List WriteRow)

@[simp] theorem State.finish_params : (s.finish u r st es).params = s.params := rfl
@[simp] theorem State.finish_decoders : (s.finish u r st es).decoders = s.decoders := rfl
@[simp] theorem State.finish_active : (s.finish u r st es).active = s.active := rfl
@[simp] theorem State.finish_inputs : (s.finish u r st es).inputs = s.inputs := rfl
@[simp] theorem State.finish_sink : (s.finish u r st es).sink = s.sink := rfl
@[simp] theorem State.finish_outputs : (s.finish u r st es).outputs = s.outputs ++ [⟨u, r, st, es⟩] := rfl
@[simp] theorem State.finish_decoder? (j : Nat) : (s.finish u r st es).decoder? j = s.decoder? j := rfl

@[simp] theorem State.finishQuiet_params : (s.finishQuiet r).params = s.params := rfl
@[simp] theorem State.finishQuiet_decoders : (s.finishQuiet r).decoders = s.decoders := rfl
@[simp] theorem State.finishQuiet_active : (s.finishQuiet r).active = s.active := rfl
@[simp] theorem State.finishQuiet_inputs : (s.finishQuiet r).inputs = s.inputs := rfl
@[simp] theorem State.finishQuiet_sink : (s.finishQuiet r).sink = s.sink := rfl
@[simp] theorem State.finishQuiet_outputs :
    (s.finishQuiet r).outputs = s.outputs ++ [⟨.decoder s.active, r, .ok, []⟩] := rfl
@[simp] theorem State.finishQuiet_decoder? (j : Nat) : (s.finishQuiet r).decoder? j = s.decoder? j := rfl

end Finish

section SetDecoder

variable (s : State) (id : Nat) (d : Decoder)

@[simp] theorem State.setDecoder_params : (s.setDecoder id d).params = s.params := rfl
@[simp] theorem State.setDecoder_active : (s.setDecoder id d).active = s.active := rfl
@[simp] theorem State.setDecoder_inputs : (s.setDecoder id d).inputs = s.inputs := rfl
@[simp] theorem State.setDecoder_sink : (s.setDecoder id d).sink = s.sink := rfl
@[simp] theorem State.setDecoder_outputs : (s.setDecoder id d).outputs = s.outputs := rfl
@[simp] theorem State.setDecoder_decoders : (s.setDecoder id d).decoders = insertDecoder id d s.decoders := rfl

end SetDecoder

section Updates

variable (s : State)

@[simp] theorem State.decoder?_inputs (xs : List Input) (j : Nat) :
    State.decoder? { s with inputs := xs } j = s.decoder? j := rfl
@[simp] theorem State.decoder?_active (k j : Nat) : State.decoder? { s with active := k } j = s.decoder? j := rfl
@[simp] theorem State.decoder?_inputs_active (xs : List Input) (k j : Nat) :
    State.decoder? { s with inputs := xs, active := k } j = s.decoder? j := rfl
@[simp] theorem State.decoder?_sink (sk : Sink) (j : Nat) : State.decoder? { s with sink := sk } j = s.decoder? j := rfl
@[simp] theorem State.decoder?_outputs (o : List StepRecord) (j : Nat) :
    State.decoder? { s with outputs := o } j = s.decoder? j := rfl

end Updates

section Decoder

variable (d : Decoder)

@[simp] theorem Decoder.memWrite_mode (i : Nat) (v : Byte) : (d.memWrite i v).mode = d.mode := rfl
@[simp] theorem Decoder.memWrite_cnt (i : Nat) (v : Byte) : (d.memWrite i v).cnt = d.cnt := rfl
@[simp] theorem Decoder.memWrite_row (i : Nat) (v : Byte) :
    (d.memWrite i v).row = d.row.setIfInBounds i (some v) := rfl
@[simp] theorem Decoder.memWrite_discards (i : Nat) (v : Byte) : (d.memWrite i v).discards = d.discards := rfl

@[simp] theorem Decoder.append_mode (b : Byte) : (d.append b).mode = d.mode := rfl
@[simp] theorem Decoder.append_cnt (b : Byte) : (d.append b).cnt = d.cnt + 1 := rfl
@[simp] theorem Decoder.append_row (b : Byte) : (d.append b).row = d.row.setIfInBounds d.cnt.toNat (some b) := rfl
@[simp] theorem Decoder.append_discards (b : Byte) : (d.append b).discards = d.discards := rfl

@[simp] theorem Decoder.startFrame_mode : d.startFrame.mode = .collecting := rfl
@[simp] theorem Decoder.startFrame_cnt : d.startFrame.cnt = 0 := rfl
@[simp] theorem Decoder.startFrame_row : d.startFrame.row = Vector.replicate 8 none := rfl
@[simp] theorem Decoder.startFrame_discards : d.startFrame.discards = d.discards := rfl

@[simp] theorem Decoder.endFrame_mode : d.endFrame.mode = .waiting := rfl
@[simp] theorem Decoder.endFrame_cnt : d.endFrame.cnt = 0 := rfl
@[simp] theorem Decoder.endFrame_row : d.endFrame.row = Vector.replicate 8 none := rfl
@[simp] theorem Decoder.endFrame_discards : d.endFrame.discards = d.discards := rfl

@[simp] theorem Decoder.countDiscard_mode (p : Params) : (d.countDiscard p).mode = d.mode := rfl
@[simp] theorem Decoder.countDiscard_cnt (p : Params) : (d.countDiscard p).cnt = d.cnt := rfl
@[simp] theorem Decoder.countDiscard_row (p : Params) : (d.countDiscard p).row = d.row := rfl
@[simp] theorem Decoder.countDiscard_discards (p : Params) :
    (d.countDiscard p).discards = d.discards.map (bumpDiscards p.discardCounterWidth) := rfl

@[simp] theorem Decoder.constructed_mode (p : Params) : (Decoder.constructed p).mode = .waiting := rfl
@[simp] theorem Decoder.constructed_cnt (p : Params) : (Decoder.constructed p).cnt = 0 := rfl
@[simp] theorem Decoder.constructed_row (p : Params) : (Decoder.constructed p).row = Vector.replicate 8 none := rfl
@[simp] theorem Decoder.constructed_discards (p : Params) :
    (Decoder.constructed p).discards = if p.hasDiscardCounter then some 0 else none := rfl

end Decoder

end Sys2Proof.Machine
end

