-- ==== Sys2Proof/Laws/Ops.lean ====
section
/-! SUPPORT. One lemma for everything a shared operation can do: the list of instances, the row buffer, the delivery. -/

namespace Sys2Proof.Machine

/-! ### Instances -/

theorem lookupDecoder_insert_self (id : Nat) (d : Decoder) (l : List (Nat × Decoder)) :
    lookupDecoder id (insertDecoder id d l) = some d := by
  induction l with
  | nil => simp [insertDecoder, lookupDecoder]
  | cons x rest ih =>
    obtain ⟨j, e⟩ := x
    unfold insertDecoder
    split
    · simp [lookupDecoder]
    · split
      · simp [lookupDecoder]
      · rename_i h
        simp [lookupDecoder, h, ih]

theorem lookupDecoder_insert_ne {id j : Nat} (h : j ≠ id) (d : Decoder) (l : List (Nat × Decoder)) :
    lookupDecoder j (insertDecoder id d l) = lookupDecoder j l := by
  induction l with
  | nil => simp [insertDecoder, lookupDecoder, h]
  | cons x rest ih =>
    obtain ⟨k, e⟩ := x
    unfold insertDecoder
    split
    · simp [lookupDecoder, h]
    · split
      · rename_i hk
        subst hk
        simp [lookupDecoder, h]
      · simp [lookupDecoder, ih]

@[simp] theorem State.decoder?_setDecoder_self (s : State) (id : Nat) (d : Decoder) :
    (s.setDecoder id d).decoder? id = some d := lookupDecoder_insert_self id d s.decoders

theorem State.decoder?_setDecoder_ne (s : State) {id j : Nat} (h : j ≠ id) (d : Decoder) :
    (s.setDecoder id d).decoder? j = s.decoder? j := lookupDecoder_insert_ne h d s.decoders

theorem mem_insertDecoder {id : Nat} {d : Decoder} {l : List (Nat × Decoder)} {x : Nat × Decoder}
    (h : x ∈ insertDecoder id d l) : x = (id, d) ∨ x ∈ l := by
  induction l with
  | nil => simpa [insertDecoder] using h
  | cons y rest ih =>
    obtain ⟨k, e⟩ := y
    unfold insertDecoder at h
    split at h
    · simpa using h
    · split at h
      · rcases List.mem_cons.1 h with h | h
        · exact .inl h
        · exact .inr (List.mem_cons_of_mem _ h)
      · rcases List.mem_cons.1 h with h | h
        · exact .inr (by simp [h])
        · exact (ih h).imp_right (List.mem_cons_of_mem _)

/-- The canonical form is kept by an insertion. -/
theorem risingFrom_insertDecoder (id : Nat) (d : Decoder) {l : List (Nat × Decoder)} (h : risingFrom l = true) :
    risingFrom (insertDecoder id d l) = true := by
  induction l with
  | nil => simp [insertDecoder, risingFrom]
  | cons y rest ih =>
    obtain ⟨k, e⟩ := y
    simp only [risingFrom, Bool.and_eq_true, List.all_eq_true, decide_eq_true_eq] at h
    unfold insertDecoder
    split
    · rename_i hlt
      simp only [risingFrom, Bool.and_eq_true, List.all_eq_true, decide_eq_true_eq, List.mem_cons]
      refine ⟨?_, h⟩
      rintro x (rfl | hx)
      · exact hlt
      · exact hlt.trans (h.1 x hx)
    · split
      · rename_i _ heq
        subst heq
        simp only [risingFrom, Bool.and_eq_true, List.all_eq_true, decide_eq_true_eq]
        exact h
      · rename_i hlt hne
        simp only [risingFrom, Bool.and_eq_true, List.all_eq_true, decide_eq_true_eq]
        refine ⟨fun x hx => ?_, ih h.2⟩
        rcases mem_insertDecoder hx with rfl | hx
        · exact lt_of_le_of_ne (not_lt.1 hlt) (Ne.symm hne)
        · exact h.1 x hx

theorem lookupDecoder_mem {id : Nat} {d : Decoder} {l : List (Nat × Decoder)} (h : lookupDecoder id l = some d) :
    (id, d) ∈ l := by
  induction l with
  | nil => simp [lookupDecoder] at h
  | cons y rest ih =>
    obtain ⟨k, e⟩ := y
    unfold lookupDecoder at h
    split at h
    · rename_i hk
      cases h
      simp [hk]
    · exact List.mem_cons_of_mem _ (ih h)

/-! ### The row buffer -/

theorem Decoder.memRead_eq_toList (d : Decoder) (i : Nat) : d.memRead i = (d.row.toList[i]?).join := by
  simp [Decoder.memRead]

/-- A read of consecutive slots that all hold values gives the values. -/
theorem Decoder.readRows_ok {d : Decoder} {vs : List Byte} {i : Nat}
    (h : ∀ j, j < vs.length → d.memRead (i + j) = vs[j]?) : d.readRows i vs.length = .ok vs := by
  induction vs generalizing i with
  | nil => rfl
  | cons v vs ih =>
    have h0 := h 0 (by simp)
    have hs : ∀ j, j < vs.length → d.memRead (i + 1 + j) = vs[j]? := fun j hj => by
      have := h (j + 1) (by simpa using hj)
      simpa [Nat.add_assoc, Nat.add_comm 1 j] using this
    simp only [Nat.add_zero, List.getElem?_cons_zero] at h0
    simp [List.length_cons, Decoder.readRows, h0, ih hs]

/-- What a read of consecutive slots gives, when it gives something. -/
theorem Decoder.readRows_length {d : Decoder} {n i : Nat} {vs : List Byte} (h : d.readRows i n = .ok vs) :
    vs.length = n := by
  induction n generalizing i vs with
  | zero => cases h; rfl
  | succ n ih =>
    unfold Decoder.readRows at h
    split at h
    · cases h
    · split at h
      · rename_i hvs
        cases h
        simp [ih hvs]
      · cases h

/-- Appending to `C(k; v)` gives the rows `v ++ [b]`. -/
theorem Decoder.append_rows {d : Decoder} {v : List Byte} (b : Byte) (h : d.Holds v) :
    (d.append b).row.toList = (v ++ [b]).map some ++ List.replicate (7 - v.length) none := by
  obtain ⟨_, hc, hle, hrow⟩ := h
  have : 8 - v.length = (7 - v.length) + 1 := by omega
  rw [Decoder.append_row, Vector.toList_setIfInBounds, hrow, hc, this, List.replicate_succ]
  simp

/-- Appending a row byte to a frame that does not complete: `C(k; v)` becomes `C(k+1; v ++ [b])`. -/
theorem Decoder.append_holds {d : Decoder} {v : List Byte} (b : Byte) (h : d.Holds v) (hk : v.length ≤ 6) :
    (d.append b).Holds (v ++ [b]) := by
  have hr := Decoder.append_rows b h
  obtain ⟨hm, hc, hle, _⟩ := h
  refine ⟨by simpa using hm, ?_, by simp; omega, ?_⟩
  · simp only [Decoder.append_cnt, List.length_append, List.length_singleton]
    rw [BitVec.toNat_add]
    simp
    omega
  · rw [hr]
    simp [show 8 - (v.length + 1) = 7 - v.length by omega]

/-- The Bitmap read from seven rows and the appended byte. -/
theorem Decoder.append_readBitmap {d : Decoder} {v : List Byte} (b : Byte) (h : d.Holds v) (hv : v.length = 7) :
    (d.append b).readBitmap = .ok (v ++ [b]) := by
  have hr := Decoder.append_rows b h
  have hl : (v ++ [b]).length = Config.nRows := by simp [hv]
  unfold Decoder.readBitmap
  rw [← hl]
  refine Decoder.readRows_ok fun j hj => ?_
  rw [Decoder.memRead_eq_toList, hr, Nat.zero_add]
  rw [List.getElem?_append_left (by simpa using hj), List.getElem?_map]
  rw [List.getElem?_eq_getElem hj]
  rfl

/-! ### The display sink -/

@[simp] theorem Sink.answer_afterCall (sk : Sink) (j : Nat) : sk.afterCall.answer j = sk.answer (j + 1) := by
  unfold Sink.answer Sink.afterCall
  simp [List.getElem?_tail, Nat.add_assoc, Nat.add_comm 1 j]

theorem deliverFrom_sink (p : SinkErrorPolicy) (r : Nat) (vs : List Byte) (sk : Sink) :
    (deliverFrom p r vs sk).sink =
      ⟨sk.answers.drop (deliverFrom p r vs sk).events.length, sk.calls + (deliverFrom p r vs sk).events.length⟩ := by
  induction vs generalizing r sk with
  | nil => rfl
  | cons v vs ih =>
    unfold deliverFrom
    cases sk.answer 0 <;> cases p <;>
      simp [ih, Sink.afterCall, Nat.add_assoc, Nat.add_comm 1, List.drop_tail]

/-- The calls of a delivery: the rows in ascending order, each with the sink's answer, as far as the delivery goes. -/
theorem deliverFrom_events (p : SinkErrorPolicy) (r : Nat) (vs : List Byte) (sk : Sink) :
    (deliverFrom p r vs sk).events.length ≤ vs.length ∧
    ∀ k, k < (deliverFrom p r vs sk).events.length →
      (deliverFrom p r vs sk).events[k]? =
        (vs[k]?).map fun v => ⟨Config.deviceIndex, r + k, v, sk.answer k⟩ := by
  induction vs generalizing r sk with
  | nil => simp [deliverFrom]
  | cons v vs ih =>
    have ih' := ih (r + 1) sk.afterCall
    unfold deliverFrom
    cases h : sk.answer 0 <;> cases p <;> simp only [List.length_cons, List.length_nil] <;>
      refine ⟨by omega, fun k hk => ?_⟩ <;> cases k <;> simp_all [Nat.add_assoc, Nat.add_comm 1]

/-- The status of a delivery is that of its first rejected row. -/
theorem deliverFrom_status (p : SinkErrorPolicy) (r : Nat) (vs : List Byte) (sk : Sink) :
    ((deliverFrom p r vs sk).status = .ok ∧ (deliverFrom p r vs sk).events.length = vs.length ∧
      ∀ k, k < vs.length → sk.answer k = .accept) ∨
    ∃ k, k < vs.length ∧ (deliverFrom p r vs sk).status = .sinkRejected (r + k) ∧ sk.answer k = .reject ∧
      (∀ j, j < k → sk.answer j = .accept) ∧
      (deliverFrom p r vs sk).events.length = (match p with | .abortRemaining => k + 1 | .continueRows => vs.length) := by
  induction vs generalizing r sk with
  | nil => simp [deliverFrom]
  | cons v vs ih =>
    have ih' := ih (r + 1) sk.afterCall
    unfold deliverFrom
    cases h : sk.answer 0 with
    | accept =>
      simp only
      rcases ih' with ⟨h1, h2, h3⟩ | ⟨k, hk, h1, h2, h3, h4⟩
      · refine .inl ⟨h1, by simp [h2], fun k hk => ?_⟩
        cases k with
        | zero => exact h
        | succ k => simpa using h3 k (by simpa using hk)
      · refine .inr ⟨k + 1, by simpa using hk, by rw [h1]; congr 1; omega, by simpa using h2, ?_, ?_⟩
        · intro j hj
          cases j with
          | zero => exact h
          | succ j => simpa using h3 j (by omega)
        · cases p <;> simp [h4]
    | reject =>
      refine .inr ⟨0, by simp, ?_, h, by omega, ?_⟩
      · cases p <;> rfl
      · cases p with
        | abortRemaining => rfl
        | continueRows =>
          rcases ih' with ⟨h1, h2, h3⟩ | ⟨k, hk, h1, h2, h3, h4⟩
          · simp [h2]
          · simp [h4]

end Sys2Proof.Machine
end

