-- ==== Sys2Proof/Laws/Exec.lean ====
section
/-! SUPPORT. What each instruction does when it answers a next state, said once (`exec_next_cases`), and when it does:
the lemmas later proofs cite instead of unfolding a meaning. -/

namespace Sys2Proof.Machine

open Host (Outcome)

theorem onActive_eq {s : State} {d : Decoder} (h : s.decoder? s.active = some d)
    (f : Decoder → Outcome State Fault Refusal) : onActive s f = f d := by
  simp [onActive, h]

theorem onActive_none {s : State} (h : s.decoder? s.active = none)
    (f : Decoder → Outcome State Fault Refusal) : onActive s f = .refused (.notConstructed s.active) := by
  simp [onActive, h]

theorem onActive_next {s t : State} {f : Decoder → Outcome State Fault Refusal} (h : onActive s f = .next t) :
    ∃ d, s.decoder? s.active = some d ∧ f d = .next t := by
  unfold onActive at h
  split at h
  · exact ⟨_, ‹_›, h⟩
  · cases h

/-! ### The four behaviours of a FEED, where the state selects them -/

theorem execFeedHdr_eq {s : State} {d : Decoder} (h : s.decoder? s.active = some d) (hm : d.mode = .waiting) :
    execFeedHdr s = .next ((s.setDecoder s.active d.startFrame).finishQuiet .nothing) := by
  simp [execFeedHdr, onActive_eq h, hm]

theorem execFeedDiscard_eq {s : State} {d : Decoder} {b : Byte} (h : s.decoder? s.active = some d)
    (hm : d.mode = .waiting) (hb : b ≠ Config.headerByte) :
    execFeedDiscard b s = .next ((s.setDecoder s.active (d.countDiscard s.params)).finishQuiet .nothing) := by
  unfold execFeedDiscard
  rw [onActive_eq h, if_pos ⟨hm, hb⟩]

theorem execFeedRow_eq {s : State} {d : Decoder} {k : BitVec 3} {b : Byte} (h : s.decoder? s.active = some d)
    (hm : d.mode = .collecting) (hc : d.cnt.toNat = k.toNat) (hk : k ≠ 7) :
    execFeedRow k b s = .next ((s.setDecoder s.active (d.append b)).finishQuiet .nothing) := by
  unfold execFeedRow
  rw [onActive_eq h, if_pos ⟨hm, hc, hk⟩]

theorem execFeedLast_eq {s : State} {d : Decoder} {b : Byte} {B : List Byte} (h : s.decoder? s.active = some d)
    (hm : d.mode = .collecting) (hc : d.cnt = 7) (hB : (d.append b).readBitmap = .ok B) :
    execFeedLast b s = .next (finishDelivery B (s.setDecoder s.active (d.append b).endFrame)) := by
  simp [execFeedLast, onActive_eq h, hm, hc, hB]

theorem Decoder.countLow_toNat {d : Decoder} (h : d.cnt.toNat ≤ 7) : d.countLow.toNat = d.cnt.toNat := by
  simp [Decoder.countLow]
  omega

/-- The dispatch of 40_decoder R83, case by case. -/
theorem execFeed_cases {s : State} {d : Decoder} (b : Byte) (h : s.decoder? s.active = some d) :
    (d.mode = .waiting ∧ b = Config.headerByte ∧ execFeed b s = execFeedHdr s) ∨
    (d.mode = .waiting ∧ b ≠ Config.headerByte ∧ execFeed b s = execFeedDiscard b s) ∨
    (d.mode = .collecting ∧ d.cnt = 7 ∧ execFeed b s = execFeedLast b s) ∨
    (d.mode = .collecting ∧ d.cnt ≠ 7 ∧ execFeed b s = execFeedRow d.countLow b s) := by
  unfold execFeed
  rw [onActive_eq h]
  cases hm : d.mode
  · by_cases hb : b = Config.headerByte
    · exact .inl ⟨rfl, hb, if_pos hb⟩
    · exact .inr (.inl ⟨rfl, hb, if_neg hb⟩)
  · by_cases hc : d.cnt = 7
    · exact .inr (.inr (.inl ⟨rfl, hc, if_pos hc⟩))
    · exact .inr (.inr (.inr ⟨rfl, hc, if_neg hc⟩))

@[simp] theorem Decoder.endFrame_append (d : Decoder) (b : Byte) : (d.append b).endFrame = d.endFrame := rfl

/-! ### Inversion -/

/-- What a FEED behaviour leaves, when it answers a next state. -/
inductive FeedNext (b : Byte) (s : State) (d : Decoder) : State → Prop
  | hdr (hm : d.mode = .waiting) (hb : b = Config.headerByte) :
      FeedNext b s d ((s.setDecoder s.active d.startFrame).finishQuiet .nothing)
  | discard (hm : d.mode = .waiting) (hb : b ≠ Config.headerByte) :
      FeedNext b s d ((s.setDecoder s.active (d.countDiscard s.params)).finishQuiet .nothing)
  | row (hm : d.mode = .collecting) (hc : d.cnt.toNat ≤ 6) :
      FeedNext b s d ((s.setDecoder s.active (d.append b)).finishQuiet .nothing)
  | last (B : List Byte) (hm : d.mode = .collecting) (hc : d.cnt = 7) (hB : (d.append b).readBitmap = .ok B) :
      FeedNext b s d (finishDelivery B (s.setDecoder s.active d.endFrame))

theorem execFeedHdr_next {s t : State} (h : execFeedHdr s = .next t) :
    ∃ d, s.decoder? s.active = some d ∧ FeedNext Config.headerByte s d t ∧ d.mode = .waiting := by
  obtain ⟨d, hd, h⟩ := onActive_next h
  split at h
  · rename_i hm
    cases h
    exact ⟨d, hd, .hdr hm rfl, hm⟩
  · cases h

theorem execFeedDiscard_next {b : Byte} {s t : State} (h : execFeedDiscard b s = .next t) :
    ∃ d, s.decoder? s.active = some d ∧ FeedNext b s d t ∧ d.mode = .waiting ∧ b ≠ Config.headerByte := by
  obtain ⟨d, hd, h⟩ := onActive_next h
  split at h
  · rename_i hm
    cases h
    exact ⟨d, hd, .discard hm.1 hm.2, hm⟩
  · cases h

theorem execFeedRow_next {k : BitVec 3} {b : Byte} {s t : State} (h : execFeedRow k b s = .next t) :
    ∃ d, s.decoder? s.active = some d ∧ FeedNext b s d t ∧ d.mode = .collecting ∧ d.cnt.toNat ≤ 6 ∧
      d.cnt.toNat = k.toNat := by
  obtain ⟨d, hd, h⟩ := onActive_next h
  split at h
  · rename_i hm
    obtain ⟨hm, hc, hk⟩ := hm
    cases h
    have hk6 : k.toNat ≤ 6 := by
      have : k.toNat ≠ 7 := fun h7 => hk (BitVec.eq_of_toNat_eq (by simpa using h7))
      have := k.isLt
      omega
    exact ⟨d, hd, .row hm (by omega), hm, by omega, hc⟩
  · cases h

theorem execFeedLast_next {b : Byte} {s t : State} (h : execFeedLast b s = .next t) :
    ∃ d, s.decoder? s.active = some d ∧ FeedNext b s d t ∧ d.mode = .collecting ∧ d.cnt = 7 := by
  obtain ⟨d, hd, h⟩ := onActive_next h
  split at h
  · rename_i hm
    split at h
    · rename_i B hB
      cases h
      exact ⟨d, hd, .last B hm.1 hm.2 hB, hm⟩
    · cases h
  · cases h

theorem execFeed_next {b : Byte} {s t : State} (h : execFeed b s = .next t) :
    ∃ d, s.decoder? s.active = some d ∧ FeedNext b s d t := by
  obtain ⟨d, hd, -⟩ := onActive_next h
  rcases execFeed_cases b hd with ⟨_, hb, he⟩ | ⟨_, _, he⟩ | ⟨_, _, he⟩ | ⟨_, _, he⟩ <;> rw [he] at h
  · obtain ⟨d, hd, hn, _⟩ := execFeedHdr_next h
    exact ⟨d, hd, hb ▸ hn⟩
  · obtain ⟨d, hd, hn, _⟩ := execFeedDiscard_next h
    exact ⟨d, hd, hn⟩
  · obtain ⟨d, hd, hn, _⟩ := execFeedLast_next h
    exact ⟨d, hd, hn⟩
  · obtain ⟨d, hd, hn, _⟩ := execFeedRow_next h
    exact ⟨d, hd, hn⟩

/-- Does the instruction run the FEED family on byte `b`? -/
inductive FeedInstr (b : Byte) : Instr → Prop
  | feed : FeedInstr b (.feed b)
  | hdr (hb : b = Config.headerByte) : FeedInstr b .feedHdr
  | discard : FeedInstr b (.feedDiscard b)
  | row (k : BitVec 3) : FeedInstr b (.feedRow k b)
  | last : FeedInstr b (.feedLast b)

/-- Everything an instruction can do when it answers a next state. -/
inductive ExecNext (s : State) : Instr → State → Prop
  | idle (d : Decoder) (hd : s.decoder? s.active = some d) : ExecNext s .idle (s.finishQuiet .nothing)
  | reset : ExecNext s .reset ((s.setDecoder s.active (Decoder.constructed s.params)).finishQuiet .nothing)
  | rdcnt (d : Decoder) (n : Nat) (hd : s.decoder? s.active = some d) (hn : d.discards = some n) :
      ExecNext s .rdcnt (s.finishQuiet (.count n))
  | encode (data : List Byte) :
      ExecNext s (.encode data) (s.finish .encoder (encodeRequest data).1 (encodeRequest data).2 [])
  | feed (i : Instr) (b : Byte) (d : Decoder) (t : State) (hi : FeedInstr b i) (hd : s.decoder? s.active = some d)
      (hn : FeedNext b s d t) : ExecNext s i t

/-- The inversion lemma of `exec`. -/
theorem exec_next_cases {i : Instr} {s t : State} (h : exec i s = .next t) : ExecNext s i t := by
  cases i with
  | idle =>
    obtain ⟨d, hd, h⟩ := onActive_next h
    cases h
    exact .idle d hd
  | feed b =>
    obtain ⟨d, hd, hn⟩ := execFeed_next h
    exact .feed _ b d t .feed hd hn
  | reset => cases h; exact .reset
  | rdcnt =>
    obtain ⟨d, hd, h⟩ := onActive_next h
    split at h
    · rename_i n hn
      cases h
      exact .rdcnt d n hd hn
    · cases h
  | feedLast b =>
    obtain ⟨d, hd, hn, _⟩ := execFeedLast_next h
    exact .feed _ b d t .last hd hn
  | feedRow k b =>
    obtain ⟨d, hd, hn, _⟩ := execFeedRow_next h
    exact .feed _ b d t (.row k) hd hn
  | feedHdr =>
    obtain ⟨d, hd, hn, _⟩ := execFeedHdr_next h
    exact .feed _ _ d t (.hdr rfl) hd hn
  | feedDiscard b =>
    obtain ⟨d, hd, hn, _⟩ := execFeedDiscard_next h
    exact .feed _ b d t .discard hd hn
  | encode data => cases h; exact .encode data

/-! ### Stable states -/

/-- A list of slots of which exactly the first `k` are written is its written slots, then empty ones. -/
theorem written_first {l : List (Option Byte)} {k : Nat} (hk : k ≤ l.length)
    (h : ∀ i (hi : i < l.length), (l[i]).isSome = decide (i < k)) :
    (l.filterMap id).length = k ∧ l = (l.filterMap id).map some ++ List.replicate (l.length - k) none := by
  induction l generalizing k with
  | nil => simp at hk; simp [hk]
  | cons x l ih =>
    have h0 : x.isSome = decide (0 < k) := h 0 (by simp)
    cases k with
    | zero =>
      have hx : x = none := by simpa using h0
      have hs : ∀ i (hi : i < l.length), (l[i]).isSome = decide (i < 0) := fun i hi => by
        have : (l[i]).isSome = decide (i + 1 < 0) := h (i + 1) (Nat.succ_lt_succ hi)
        simpa using this
      obtain ⟨h1, h2⟩ := ih (Nat.zero_le _) hs
      have h1' := List.eq_nil_of_length_eq_zero h1
      rw [h1'] at h2
      subst hx
      refine ⟨by simpa using h1, ?_⟩
      rw [List.filterMap_cons_none rfl, h1']
      simpa [List.replicate_succ] using h2
    | succ k =>
      have hs : ∀ i (hi : i < l.length), (l[i]).isSome = decide (i < k) := fun i hi => by
        have : (l[i]).isSome = decide (i + 1 < k + 1) := h (i + 1) (Nat.succ_lt_succ hi)
        simpa using this
      obtain ⟨h1, h2⟩ := ih (by simpa using hk) hs
      cases x with
      | none => simp at h0
      | some v =>
        rw [List.filterMap_cons_some (by rfl : id (some v) = some v)]
        refine ⟨by rw [List.length_cons, h1], ?_⟩
        simpa using h2

/-- The two shapes of a stable state: `W`, or `C(k; v)` for some rows `v`. -/
theorem Decoder.Stable.shape {d : Decoder} (h : d.Stable) : d.IsWaiting ∨ d.Holds d.rows := by
  rcases h with h | ⟨hm, -, hk, hr⟩
  · exact .inl h
  · have hw := written_first (l := d.row.toList) (k := d.cnt.toNat) (by simp; omega) fun i hi => by
      simpa using hr ⟨i, by simpa using hi⟩
    refine .inr ⟨hm, hw.1.symm, hw.1.le.trans hk, ?_⟩
    have h2 := hw.2
    unfold Decoder.rows
    rw [hw.1]
    simpa using h2

/-- `C(k; v)` is a stable state. -/
theorem Decoder.Holds.isCollecting {d : Decoder} {v : List Byte} (h : d.Holds v) : d.IsCollecting v.length := by
  obtain ⟨hm, hc, hle, hr⟩ := h
  refine ⟨hm, hc, hle, fun i => ?_⟩
  have hi : d.row[i] = d.row.toList[i.val]'(by simp) := by simp
  rw [hi]
  simp only [hr]
  by_cases hlt : i.val < v.length
  · simp [hlt]
  · simp [List.getElem_append, hlt]

theorem Decoder.Holds.stable {d : Decoder} {v : List Byte} (h : d.Holds v) : d.Stable := by
  have := h.isCollecting
  refine .inr ?_
  rw [h.2.1]
  exact this

theorem Decoder.Holds.rows_eq {d : Decoder} {v : List Byte} (h : d.Holds v) : d.rows = v := by
  unfold Decoder.rows
  rw [h.2.2.2]
  simp

theorem Decoder.isWaiting_row {d : Decoder} (h : d.IsWaiting) : d.row = Vector.replicate 8 none := by
  ext i hi
  have : d.row[i] = none := h.2.2 ⟨i, hi⟩
  simp [this]

/-! ### FEED in a stable state -/

theorem exec_feed_waiting_header {s : State} {d : Decoder} (h : s.decoder? s.active = some d) (hm : d.mode = .waiting) :
    exec (.feed Config.headerByte) s = .next ((s.setDecoder s.active d.startFrame).finishQuiet .nothing) := by
  rcases execFeed_cases Config.headerByte h with ⟨_, _, he⟩ | ⟨_, hb, _⟩ | ⟨hc, _⟩ | ⟨hc, _⟩
  · exact he.trans (execFeedHdr_eq h hm)
  · exact absurd rfl hb
  · simp [hm] at hc
  · simp [hm] at hc

theorem exec_feed_waiting_noise {s : State} {d : Decoder} {b : Byte} (h : s.decoder? s.active = some d)
    (hm : d.mode = .waiting) (hb : b ≠ Config.headerByte) :
    exec (.feed b) s = .next ((s.setDecoder s.active (d.countDiscard s.params)).finishQuiet .nothing) := by
  rcases execFeed_cases b h with ⟨_, hb', _⟩ | ⟨_, _, he⟩ | ⟨hc, _⟩ | ⟨hc, _⟩
  · exact absurd hb' hb
  · exact he.trans (execFeedDiscard_eq h hm hb)
  · simp [hm] at hc
  · simp [hm] at hc

theorem exec_feed_row {s : State} {d : Decoder} {b : Byte} (h : s.decoder? s.active = some d)
    (hm : d.mode = .collecting) (hc : d.cnt.toNat ≤ 6) :
    exec (.feed b) s = .next ((s.setDecoder s.active (d.append b)).finishQuiet .nothing) := by
  have h7 : d.cnt ≠ 7 := fun h7 => by rw [h7] at hc; simp at hc
  have hlow := Decoder.countLow_toNat (d := d) (by omega)
  rcases execFeed_cases b h with ⟨hw, _⟩ | ⟨hw, _⟩ | ⟨_, hc', _⟩ | ⟨_, _, he⟩
  · simp [hm] at hw
  · simp [hm] at hw
  · exact absurd hc' h7
  · refine he.trans (execFeedRow_eq h hm hlow.symm fun hk => ?_)
    rw [hk] at hlow
    simp at hlow
    omega

theorem exec_feed_last {s : State} {d : Decoder} {b : Byte} {v : List Byte} (h : s.decoder? s.active = some d)
    (hv : d.Holds v) (hl : v.length = 7) :
    exec (.feed b) s = .next (finishDelivery (v ++ [b]) (s.setDecoder s.active d.endFrame)) := by
  have h7 : d.cnt = 7 := BitVec.eq_of_toNat_eq (by simp [hv.2.1, hl])
  rcases execFeed_cases b h with ⟨hw, _⟩ | ⟨hw, _⟩ | ⟨_, _, he⟩ | ⟨_, hc, _⟩
  · simp [hv.1] at hw
  · simp [hv.1] at hw
  · exact he.trans (execFeedLast_eq h hv.1 h7 (Decoder.append_readBitmap b hv hl))
  · exact absurd h7 hc

end Sys2Proof.Machine
end

