-- ==== Sys2Proof/Laws/Link.lean ====
section
/-! SUPPORT. Runs: the model's `run` is the host's, and feeding a stream piece by piece: noise, a header, row bytes,
the rest of a frame. Each lemma leaves the rest of the stream to be fed to the state it gives. -/

namespace Sys2Proof.Machine

open Host (Outcome)

/-- `run` is the host's run of the machine. -/
theorem run_eq_core_run (n : Nat) (s : State) : Host.Core.run Sys2Proof.core n s = run n s := by
  induction n generalizing s with
  | zero => rfl
  | succ n ih =>
    simp only [Host.Core.run, run]
    cases h : step s with
    | next t =>
      rw [show Sys2Proof.core.step s = Outcome.next t from h]
      exact ih t
    | fault e => rw [show Sys2Proof.core.step s = Outcome.fault e from h]; rfl
    | refused r => rw [show Sys2Proof.core.step s = Outcome.refused r from h]; rfl

theorem step_command {s : State} {id : Nat} {w : CommandWord} {rest : List Input} {i : Instr}
    (h : s.inputs = .command id w :: rest) (hd : decodeCommand s.params.hasDiscardCounter w = .ok i) :
    step s = exec i { s with inputs := rest, active := id } := by
  simp [step, fetch, h, hd]

theorem step_request {s : State} {data : List Byte} {rest : List Input} (h : s.inputs = .request data :: rest) :
    step s = exec (.encode data) { s with inputs := rest } := by
  simp [step, fetch, h]

/-- No instruction touches the inputs still to come. -/
theorem exec_inputs {i : Instr} {s t : State} (h : exec i s = .next t) : t.inputs = s.inputs := by
  cases exec_next_cases h with
  | feed _ b d _ hi hd hn => cases hn <;> rfl
  | _ => rfl

/-! ### Inputs one at a time -/

theorem runInputs_nil (s : State) : runInputs [] s = .next { s with inputs := [] } := rfl

/-- A run that takes one input more: its first step, and the run of the rest. -/
theorem runInputs_cons {x : Input} {xs : List Input} {s t : State} (h : step { s with inputs := x :: xs } = .next t)
    (hi : t.inputs = xs) : runInputs (x :: xs) s = runInputs xs t := by
  have ht : ({ t with inputs := xs } : State) = t := by rw [← hi]
  show run (xs.length + 1) _ = run xs.length _
  rw [run, h, ht]

/-- What a step leaves of the inputs, when there is one. -/
theorem step_inputs {x : Input} {xs : List Input} {s t : State} (h : step { s with inputs := x :: xs } = .next t) :
    t.inputs = xs := by
  cases x with
  | request data =>
    rw [step_request rfl] at h
    exact exec_inputs h
  | command id w =>
    cases hd : decodeCommand s.params.hasDiscardCounter w with
    | ok i =>
      rw [step_command (s := { s with inputs := .command id w :: xs }) rfl hd] at h
      exact exec_inputs h
    | error e => simp [step, fetch, hd] at h

/-- Inversion of a run that takes at least one input. -/
theorem runInputs_cons_next {x : Input} {xs : List Input} {s u : State} (h : runInputs (x :: xs) s = .next u) :
    ∃ t, step { s with inputs := x :: xs } = .next t ∧ t.inputs = xs ∧ runInputs xs t = .next u := by
  cases hs : step { s with inputs := x :: xs } with
  | next t =>
    have hi := step_inputs hs
    exact ⟨t, rfl, hi, (runInputs_cons hs hi).symm.trans h⟩
  | fault e =>
    have hr : runInputs (x :: xs) s = .fault e := by
      show run (xs.length + 1) _ = _
      rw [run, hs]
    rw [hr] at h
    cases h
  | refused e =>
    have hr : runInputs (x :: xs) s = .refused e := by
      show run (xs.length + 1) _ = _
      rw [run, hs]
    rw [hr] at h
    cases h

/-! ### Feeding a byte at a time -/

theorem feedBytes_nil (id : Nat) (s : State) : feedBytes id [] s = .next { s with inputs := [] } := rfl

/-- One byte is fed, and then the rest. -/
theorem feedBytes_cons {id : Nat} {b : Byte} {bs : List Byte} {s t : State}
    (h : exec (.feed b) { s with inputs := feedInputs id bs, active := id } = .next t) :
    feedBytes id (b :: bs) s = feedBytes id bs t := by
  have hi : t.inputs = feedInputs id bs := exec_inputs h
  have hs : step { s with inputs := feedInputs id (b :: bs) } = .next t :=
    (step_command rfl (decodeCommand_feed _ b)).trans h
  have ht : ({ t with inputs := feedInputs id bs } : State) = t := by rw [← hi]
  show run (feedInputs id (b :: bs)).length _ = run (feedInputs id bs).length _
  simp only [feedInputs, List.map_cons, List.length_cons, run] at *
  rw [hs, ht]

/-- The record of a step of instance `id` without result, error or event. -/
abbrev quietRecord (id : Nat) : StepRecord := ⟨.decoder id, .nothing, .ok, []⟩

/-- A header while waiting. -/
theorem feedBytes_header {s : State} {id : Nat} {d : Decoder} (rest : List Byte) (h : s.decoder? id = some d)
    (hw : d.mode = .waiting) :
    ∃ t, feedBytes id (Config.headerByte :: rest) s = feedBytes id rest t ∧ t.decoder? id = some d.startFrame ∧
      t.outputs = s.outputs ++ [quietRecord id] ∧ t.sink = s.sink ∧ t.params = s.params := by
  have he := exec_feed_waiting_header (s := { s with inputs := feedInputs id rest, active := id }) h hw
  exact ⟨_, feedBytes_cons he, State.decoder?_setDecoder_self _ _ _, rfl, rfl, rfl⟩

/-- One byte of noise while waiting. -/
theorem feedBytes_noiseByte {s : State} {id : Nat} {d : Decoder} {b : Byte} (rest : List Byte)
    (h : s.decoder? id = some d) (hw : d.mode = .waiting) (hb : b ≠ Config.headerByte) :
    ∃ t, feedBytes id (b :: rest) s = feedBytes id rest t ∧ t.decoder? id = some (d.countDiscard s.params) ∧
      t.outputs = s.outputs ++ [quietRecord id] ∧ t.sink = s.sink ∧ t.params = s.params := by
  have he := exec_feed_waiting_noise (s := { s with inputs := feedInputs id rest, active := id }) h hw hb
  exact ⟨_, feedBytes_cons he, State.decoder?_setDecoder_self _ _ _, rfl, rfl, rfl⟩

/-- One row byte that does not complete the frame. -/
theorem feedBytes_rowByte {s : State} {id : Nat} {d : Decoder} {v : List Byte} {b : Byte} (rest : List Byte)
    (h : s.decoder? id = some d) (hv : d.Holds v) (hl : v.length ≤ 6) :
    ∃ t, feedBytes id (b :: rest) s = feedBytes id rest t ∧ t.decoder? id = some (d.append b) ∧
      t.outputs = s.outputs ++ [quietRecord id] ∧ t.sink = s.sink ∧ t.params = s.params := by
  have he := exec_feed_row (s := { s with inputs := feedInputs id rest, active := id }) (b := b) h hv.1
    (by rw [hv.2.1]; exact hl)
  exact ⟨_, feedBytes_cons he, State.decoder?_setDecoder_self _ _ _, rfl, rfl, rfl⟩

/-- The eighth row byte. -/
theorem feedBytes_lastByte {s : State} {id : Nat} {d : Decoder} {v : List Byte} {b : Byte} (rest : List Byte)
    (h : s.decoder? id = some d) (hv : d.Holds v) (hl : v.length = 7) :
    ∃ t, feedBytes id (b :: rest) s = feedBytes id rest t ∧ t.decoder? id = some d.endFrame ∧
      t.outputs = s.outputs ++ [⟨.decoder id, .bitmap (v ++ [b]),
        (deliver s.params.sinkErrorPolicy (v ++ [b]) s.sink).status,
        (deliver s.params.sinkErrorPolicy (v ++ [b]) s.sink).events⟩] ∧
      t.params = s.params := by
  have he := exec_feed_last (s := { s with inputs := feedInputs id rest, active := id }) (b := b) h hv hl
  exact ⟨_, feedBytes_cons he, State.decoder?_setDecoder_self _ _ _, rfl, rfl⟩

theorem Decoder.endFrame_isWaiting (d : Decoder) : d.endFrame.IsWaiting :=
  ⟨rfl, rfl, fun i => by simp⟩

/-- Noise while waiting, which a machine with a counter counts. -/
theorem feedBytes_noise {id : Nat} {noise : List Byte} (rest : List Byte) (hn : Config.headerByte ∉ noise) :
    ∀ {s : State} {d : Decoder}, s.decoder? id = some d → d.mode = .waiting →
    ∃ t, feedBytes id (noise ++ rest) s = feedBytes id rest t ∧
      t.decoder? id = some { d with discards := d.discards.map (bumpDiscards s.params.discardCounterWidth)^[noise.length] } ∧
      t.outputs = s.outputs ++ List.replicate noise.length (quietRecord id) ∧ t.sink = s.sink ∧
      t.params = s.params := by
  induction noise with
  | nil =>
    intro s d h _
    exact ⟨s, rfl, by simpa using h, by simp, rfl, rfl⟩
  | cons b bs ih =>
    intro s d h hw
    have hb : b ≠ Config.headerByte := fun e => hn (e ▸ List.mem_cons_self)
    obtain ⟨u, k1, k2, k3, k4, k5⟩ := feedBytes_noiseByte (bs ++ rest) h hw hb
    obtain ⟨t, h1, h2, h3, h4, h5⟩ := ih (fun hm => hn (List.mem_cons_of_mem _ hm)) k2 hw
    refine ⟨t, k1.trans h1, ?_, ?_, h4.trans k4, h5.trans k5⟩
    · rw [h2, k5]
      simp [Decoder.countDiscard, Function.comp_def]
    · rw [h3, k3]
      simp [List.replicate_succ]

/-- Row bytes that do not complete the frame. -/
theorem feedBytes_rows {id : Nat} {vs : List Byte} (rest : List Byte) :
    ∀ {s : State} {d : Decoder} {v : List Byte}, s.decoder? id = some d → d.Holds v → v.length + vs.length ≤ 7 →
    ∃ t e, feedBytes id (vs ++ rest) s = feedBytes id rest t ∧ t.decoder? id = some e ∧ e.Holds (v ++ vs) ∧
      e.discards = d.discards ∧ t.outputs = s.outputs ++ List.replicate vs.length (quietRecord id) ∧
      t.sink = s.sink ∧ t.params = s.params := by
  induction vs with
  | nil =>
    intro s d v h hv _
    exact ⟨s, d, rfl, h, by simpa using hv, rfl, by simp, rfl, rfl⟩
  | cons b bs ih =>
    intro s d v h hv hl
    simp only [List.length_cons] at hl
    obtain ⟨u, k1, k2, k3, k4, k5⟩ := feedBytes_rowByte (b := b) (bs ++ rest) h hv (by omega)
    obtain ⟨t, e, h1, h2, h3, h4, h5, h6, h7⟩ := ih k2 (Decoder.append_holds b hv (by omega)) (by simp; omega)
    refine ⟨t, e, k1.trans h1, h2, by simpa using h3, h4, ?_, h6.trans k4, h7.trans k5⟩
    rw [h5, k3]
    simp [List.replicate_succ]

/-- The rest of a frame in progress, up to its last byte: one delivery, and the instance waits again. -/
theorem feedBytes_complete {s : State} {id : Nat} {d : Decoder} {v vs : List Byte} (rest : List Byte)
    (h : s.decoder? id = some d) (hv : d.Holds v) (hl : v.length + vs.length = 8) :
    ∃ t, feedBytes id (vs ++ rest) s = feedBytes id rest t ∧
      (∃ e, t.decoder? id = some e ∧ e.IsWaiting ∧ e.discards = d.discards) ∧
      t.outputs = s.outputs ++ List.replicate (vs.length - 1) (quietRecord id) ++
        [⟨.decoder id, .bitmap (v ++ vs), (deliver s.params.sinkErrorPolicy (v ++ vs) s.sink).status,
          (deliver s.params.sinkErrorPolicy (v ++ vs) s.sink).events⟩] ∧
      t.params = s.params := by
  have hle := hv.2.2.1
  obtain ⟨us, b, rfl⟩ : ∃ us b, vs = us ++ [b] := by
    rcases List.eq_nil_or_concat vs with rfl | ⟨us, b, h⟩
    · simp at hl; omega
    · exact ⟨us, b, by simpa using h⟩
  simp only [List.length_append, List.length_singleton] at hl
  obtain ⟨t, e, h1, h2, h3, h4, h5, h6, h7⟩ := feedBytes_rows (vs := us) (b :: rest) h hv (by omega)
  obtain ⟨u, k1, k2, k3, k4⟩ := feedBytes_lastByte (b := b) rest h2 h3 (by simp; omega)
  refine ⟨u, ?_, ⟨_, k2, e.endFrame_isWaiting, h4⟩, ?_, k4.trans h7⟩
  · rw [List.append_assoc]
    exact h1.trans k1
  · rw [k3, h5, h6, h7]
    simp

/-- A frame fed to a waiting instance: one delivery, and it waits again. -/
theorem feedBytes_frame {s : State} {id : Nat} {d : Decoder} {B : List Byte} (rest : List Byte)
    (h : s.decoder? id = some d) (hw : d.mode = .waiting) (hB : B.length = 8) :
    ∃ t, feedBytes id (frameOf B ++ rest) s = feedBytes id rest t ∧
      (∃ e, t.decoder? id = some e ∧ e.IsWaiting ∧ e.discards = d.discards) ∧
      t.outputs = s.outputs ++ List.replicate 8 (quietRecord id) ++
        [⟨.decoder id, .bitmap B, (deliver s.params.sinkErrorPolicy B s.sink).status,
          (deliver s.params.sinkErrorPolicy B s.sink).events⟩] ∧
      t.params = s.params := by
  obtain ⟨t, h1, h2, h3, h4, h5⟩ := feedBytes_header (B ++ rest) h hw
  have hh : d.startFrame.Holds [] := ⟨rfl, rfl, by simp, by simp⟩
  obtain ⟨u, k1, k2, k3, k4⟩ := feedBytes_complete (vs := B) rest h2 hh (by simpa using hB)
  refine ⟨u, h1.trans k1, k2, ?_, k4.trans h5⟩
  rw [k3, h3, h4, h5, hB]
  simp [List.replicate_succ]

/-! ### Deliveries -/

theorem deliveries_append {s t : State} {rs : List StepRecord} (id : Nat) (h : t.outputs = s.outputs ++ rs) :
    t.deliveries id = s.deliveries id ++ rs.filterMap (StepRecord.delivered? id) := by
  simp [State.deliveries, h]

@[simp] theorem delivered?_quietRecord (id j : Nat) : StepRecord.delivered? id (quietRecord j) = none := rfl

@[simp] theorem delivered?_bitmap (id : Nat) (B : List Byte) (st : Status) (es : List WriteRow) :
    StepRecord.delivered? id ⟨.decoder id, .bitmap B, st, es⟩ = some B := by
  simp [StepRecord.delivered?]

theorem filterMap_quiet (id n : Nat) :
    (List.replicate n (quietRecord id)).filterMap (StepRecord.delivered? id) = [] := by
  simp

end Sys2Proof.Machine
end

