-- ==== Sys2Proof/Laws/PerInstr.lean ====
section
/-! SUPPORT. Statements made for every instruction, one lemma a constructor. `TableRow`: the words of an instruction
match the match and mask its row of spec/opcode_table.json has. -/

namespace Sys2Proof.Laws.TableRow

/-- The match of a command word's row; the mask is `0x300` in all four. -/
def commandMatch : Instr → CommandWord
  | .feed _ => 0x100
  | .reset => 0x200
  | .rdcnt => 0x300
  | .idle | .feedLast _ | .feedRow _ _ | .feedHdr | .feedDiscard _ | .encode _ => 0x000

/-- The match and the mask of a feed key's row. -/
def keyMatch : Instr → FeedKey × FeedKey
  | .feedLast _ => (0xF00, 0xF00)
  | .feedRow _ _ => (0x800, 0x800)
  | .feedHdr => (0x0AA, 0x8FF)
  | .idle | .feed _ | .reset | .rdcnt | .feedDiscard _ | .encode _ => (0x000, 0x800)

/-- The words of `i` match its row of the table. -/
def Statement (i : Instr) : Prop :=
  match encode i with
  | .command w => w &&& 0x300 = commandMatch i
  | .key key => key &&& (keyMatch i).2 = (keyMatch i).1
  | .request data => i = .encode data

theorem idle : Statement .idle := by
  show makeCommand 0b00#2 0x00 &&& 0x300 = (0x000 : CommandWord)
  decide

theorem feed (b : Byte) : Statement (.feed b) := by
  have h : ∀ x : Fin 256, makeCommand 0b01#2 (BitVec.ofFin x) &&& 0x300 = 0x100 := by decide +kernel
  exact h b.toFin

theorem reset : Statement .reset := by
  show makeCommand 0b10#2 0x00 &&& 0x300 = (0x200 : CommandWord)
  decide

theorem rdcnt : Statement .rdcnt := by
  show makeCommand 0b11#2 0x00 &&& 0x300 = (0x300 : CommandWord)
  decide

theorem feedLast (b : Byte) : Statement (.feedLast b) := by
  have h : ∀ x : Fin 256, makeKey 1 7 (BitVec.ofFin x) &&& 0xF00 = 0xF00 := by decide +kernel
  exact h b.toFin

theorem feedRow (k : BitVec 3) (b : Byte) : Statement (.feedRow k b) := by
  have h : ∀ (y : Fin 8) (x : Fin 256), makeKey 1 (BitVec.ofFin y) (BitVec.ofFin x) &&& 0x800 = 0x800 := by
    decide +kernel
  exact h k.toFin b.toFin

theorem feedHdr : Statement .feedHdr := by
  show makeKey 0 0 Config.headerByte &&& 0x8FF = (0x0AA : FeedKey)
  decide

theorem feedDiscard (b : Byte) : Statement (.feedDiscard b) := by
  have h : ∀ x : Fin 256, makeKey 0 0 (BitVec.ofFin x) &&& 0x800 = 0x000 := by decide +kernel
  exact h b.toFin

theorem encode (data : List Byte) : Statement (.encode data) := rfl

end Sys2Proof.Laws.TableRow
end

