-- ==== Sys2Proof/Machine/Program.lean ====
section
/-! DEFINITION. Command programs: the lines of 30_encoding R77 and the inputs they stand for. -/

namespace Sys2Proof.Machine

/-- A line of a command program: a command, a request, or a pseudo-command (30_encoding R77). -/
inductive Line where
  | reset
  | idle
  | feed (b : Byte)
  | rdcnt
  | encode (data : List Byte)
  | feeds (bytes : List Byte)
  | frame (rows : Vector Byte 8)
  | wait (n : Nat)
  | send (data : List Byte)
deriving DecidableEq, Repr

/-- The FEED of one byte to instance `id`: word `0x100 + b` (30_encoding R77). -/
def feedInput (id : Nat) (b : Byte) : Input := .command id (makeCommand 0b01#2 b)

/-- The inputs a line stands for, its commands going to instance `id` (30_encoding R77). SEND feeds the bytes of an
`OK` result and nothing more where ENCODE fails. -/
def Line.inputs (id : Nat) : Line → List Input
  | .reset => [.command id (makeCommand 0b10#2 0)]
  | .idle => [.command id (makeCommand 0b00#2 0)]
  | .feed b => [feedInput id b]
  | .rdcnt => [.command id (makeCommand 0b11#2 0)]
  | .encode data => [.request data]
  | .feeds bytes => bytes.map (feedInput id)
  | .frame rows => (frameOf rows.toList).map (feedInput id)
  | .wait n => List.replicate n (.command id (makeCommand 0b00#2 0))
  | .send data =>
    match encodeRequest data with
    | (.frame f, _) => .request data :: f.map (feedInput id)
    | _ => [.request data]

/-- The inputs of a program. -/
def programInputs (id : Nat) (lines : List Line) : List Input := lines.flatMap (Line.inputs id)

end Sys2Proof.Machine
end

