-- ==== Sys2Proof/Tests/Slice0.lean ====
section
/-! SUPPORT. Tests: ill-formed terms that are refused, words written out from the encodings, one step of every
instruction on vectors of spec/95_test_vectors.md, and for every obligation with hypotheses a state and operands that
meet them. -/

namespace Sys2Proof.Machine.Tests

/-! ### A small machine -/

/-- A machine with a 32-bit discard counter that aborts a rejected delivery; instance 0 in the given state. -/
def machine (d : Decoder) (answers : List SinkAnswer) : State :=
  { params := ⟨true, 32, .abortRemaining⟩, decoders := [(0, d)], active := 0, inputs := [],
    sink := ⟨answers, 0⟩, outputs := [] }

/-- The same machine with the policy CONTINUE. -/
def continuing (d : Decoder) (answers : List SinkAnswer) : State :=
  { machine d answers with params := ⟨true, 32, .continueRows⟩ }

/-- `W` with a discard count. -/
def waits (n : Nat) : Decoder := ⟨.waiting, 0, Vector.replicate 8 none, some n⟩

/-- `C(k; v)`. -/
def holds (v : List Byte) : Decoder :=
  ⟨.collecting, BitVec.ofNat 4 v.length, Vector.ofFn fun i : Fin 8 => v[i.val]?, some 0⟩

/-- The state after a step, if there is one. -/
def after : Host.Outcome State Fault Refusal → Option State
  | .next s => some s
  | .fault _ => none
  | .refused _ => none

/-- The refusal of a step, if it is refused. -/
def refusal : Host.Outcome State Fault Refusal → Option Refusal
  | .next _ => none
  | .fault _ => none
  | .refused r => some r

/-- Instance 0 after a step. -/
def decoderAfter (o : Host.Outcome State Fault Refusal) : Option Decoder := (after o).bind (·.decoder? 0)

/-- What a step on a machine without earlier output shows. -/
def shown (o : Host.Outcome State Fault Refusal) : Option (List StepRecord) := (after o).map (·.outputs)

abbrev seven : List Byte := [1, 2, 3, 4, 5, 6, 7]

abbrev eight : List Byte := [1, 2, 3, 4, 5, 6, 7, 8]

abbrev accepts : List SinkAnswer := List.replicate 8 .accept

/-- Rows 3 and 5 rejected (95_test_vectors 2.8). -/
abbrev rejects35 : List SinkAnswer := [.accept, .accept, .accept, .reject, .accept, .reject, .accept, .accept]

/-! ### Ill-formed terms -/

theorem test_feedRow_of_seven_is_ill_formed : (Instr.feedRow 7 0x11).wellFormed = false := by decide
theorem test_feedDiscard_of_header_is_ill_formed : (Instr.feedDiscard 0xAA).wellFormed = false := by decide
theorem test_counter_of_no_width_is_ill_formed : (⟨true, 0, .abortRemaining⟩ : Params).wellFormed = false := by decide

/-! ### Words written out from 30_encoding R66, R72 (the tables 2.1 and 2.2 of 95_test_vectors) -/

theorem test_word_idle : decode false (.command 0b00_1111_1111#10) = .ok .idle := by decide
theorem test_word_feed : decode false (.command 0b01_1010_1010#10) = .ok (.feed 0xAA) := by decide
theorem test_word_reset : decode false (.command 0b10_1010_1010#10) = .ok .reset := by decide
theorem test_word_rdcnt : decode true (.command 0b11_1111_1111#10) = .ok .rdcnt := by decide
theorem test_word_rdcnt_without_counter : decode false (.command 0b11_0000_0000#10) = .error .noSuchCommand := by decide
theorem test_key_last : decode false (.key 0b1111_1010_1010#12) = .ok (.feedLast 0xAA) := by decide
theorem test_key_row : decode false (.key 0b1110_1010_1010#12) = .ok (.feedRow 6 0xAA) := by decide
theorem test_key_hdr : decode false (.key 0b0000_1010_1010#12) = .ok .feedHdr := by decide
theorem test_key_hdr_ignores_count : decode false (.key 0b0111_1010_1010#12) = .ok .feedHdr := by decide
theorem test_key_discard : decode false (.key 0b0000_0010_1010#12) = .ok (.feedDiscard 0x2A) := by decide
theorem test_request : decode false (.request [0xAA]) = .ok (.encode [0xAA]) := rfl

/-! ### Table words: decoded, and run by the very next step after reset -/

/-- Does the next step after reset run the table word: a next state, the input taken, one record shown? -/
def runsAfterReset (nbits w : Nat) : Bool :=
  match step (State.reset.withFetchWord nbits w) with
  | .next t => t.inputs.isEmpty && t.outputs.length == 1
  | .fault _ => false
  | .refused _ => false

theorem test_table_decodes :
    [decodeTableWord 16 0x000, decodeTableWord 16 0x100, decodeTableWord 16 0x200, decodeTableWord 16 0x300,
      decodeTableWord 16 0xF00, decodeTableWord 16 0x800, decodeTableWord 16 0x0AA, decodeTableWord 12 0x000,
      decodeTableWord 0 0] =
    [some .idle, some (.feed 0), some .reset, some .rdcnt, some (.feedLast 0), some (.feedRow 0 0), some .feedHdr,
      some (.feedDiscard 0), some (.encode [])] := by decide

theorem test_table_runs :
    [runsAfterReset 16 0x000, runsAfterReset 16 0x100, runsAfterReset 16 0x200, runsAfterReset 16 0x300,
      runsAfterReset 16 0xF00, runsAfterReset 16 0x800, runsAfterReset 16 0x0AA, runsAfterReset 12 0x000,
      runsAfterReset 0 0].all id = true := by decide

/-! ### One step of every instruction (95_test_vectors 2.3 to 2.10) -/

theorem test_reset_drops_partial_frame :
    decoderAfter (exec .reset (machine (holds [1, 2, 3, 4, 5]) [])) = some (waits 0) := by decide
theorem test_reset_clears_counter : decoderAfter (exec .reset (machine (waits 7) [])) = some (waits 0) := by decide

theorem test_idle_keeps_partial_frame :
    decoderAfter (exec .idle (machine (holds [0x10, 0x20, 0x30]) [])) = some (holds [0x10, 0x20, 0x30]) := by decide

theorem test_rdcnt_reads_two :
    shown (exec .rdcnt (machine (waits 2) [])) = some [⟨.decoder 0, .count 2, .ok, []⟩] := by decide
theorem test_rdcnt_without_counter :
    refusal (exec .rdcnt (machine { waits 0 with discards := none } [])) = some .noDiscardCounter := by decide

theorem test_feedHdr_starts_frame :
    decoderAfter (exec .feedHdr (machine { waits 0 with discards := some 2 } [])) =
      some { holds [] with discards := some 2 } := by decide

theorem test_feedDiscard_wraps :
    decoderAfter (exec (.feedDiscard 0x01) (machine (waits 0xFFFFFFFF) [])) = some (waits 0) := by decide
theorem test_feedDiscard_near_miss :
    decoderAfter (exec (.feedDiscard 0xAB) (machine (waits 3) [])) = some (waits 4) := by decide

theorem test_feedRow_header_value_is_data :
    decoderAfter (exec (.feedRow 3 0xAA) (machine (holds [0x10, 0x20, 0x30]) [])) =
      some (holds [0x10, 0x20, 0x30, 0xAA]) := by decide

theorem test_feed_second_header_is_row_zero :
    decoderAfter (exec (.feed 0xAA) (machine (holds []) [])) = some (holds [0xAA]) := by decide
theorem test_feed_noise : decoderAfter (exec (.feed 0x55) (machine (waits 2) [])) = some (waits 3) := by decide

theorem test_feedLast_aborts_at_row_three :
    shown (exec (.feedLast 8) (machine (holds seven) rejects35)) = some [⟨.decoder 0, .bitmap eight, .sinkRejected 3,
      [⟨0, 0, 1, .accept⟩, ⟨0, 1, 2, .accept⟩, ⟨0, 2, 3, .accept⟩, ⟨0, 3, 4, .reject⟩]⟩] := by decide
theorem test_feedLast_continues :
    shown (exec (.feedLast 8) (continuing (holds seven) rejects35)) = some [⟨.decoder 0, .bitmap eight, .sinkRejected 3,
      [⟨0, 0, 1, .accept⟩, ⟨0, 1, 2, .accept⟩, ⟨0, 2, 3, .accept⟩, ⟨0, 3, 4, .reject⟩, ⟨0, 4, 5, .accept⟩,
        ⟨0, 5, 6, .reject⟩, ⟨0, 6, 7, .accept⟩, ⟨0, 7, 8, .accept⟩]⟩] := by decide

theorem test_encode_eight_header_bytes :
    shown (exec (.encode (List.replicate 8 0xAA)) (machine (waits 0) [])) =
      some [⟨.encoder, .frame (List.replicate 9 0xAA), .ok, []⟩] := by decide
theorem test_encode_nine_bytes :
    shown (exec (.encode (List.replicate 9 0)) (machine (waits 0) [])) =
      some [⟨.encoder, .nothing, .invalidBitmapLength 9, []⟩] := by decide

/-- SEND of seven bytes feeds nothing (program P5). -/
theorem test_send_of_seven_bytes : Line.inputs 0 (.send seven) = [.request seven] := by decide
/-- WAIT and FRAME expand to their words (30_encoding R77). -/
theorem test_wait_and_frame :
    programInputs 0 [.wait 2, .frame #v[1, 2, 3, 4, 5, 6, 7, 8]] =
      [.command 0 0x000, .command 0 0x000, .command 0 0x1AA, .command 0 0x101, .command 0 0x102, .command 0 0x103,
        .command 0 0x104, .command 0 0x105, .command 0 0x106, .command 0 0x107, .command 0 0x108] := by decide

/-- Pixel (row 1, column 0) of a Bitmap is bit 7 of row 1 (30_encoding R62). -/
theorem test_pixel : pixelLit [0x00, 0x80] 1 0 = true ∧ pixelLit [0x00, 0x80] 1 7 = false := by decide

/-- `AA` seventeen times from `W`: one delivery, and `C(7; AA×7)` (95_test_vectors 2.11). -/
theorem test_stream_function :
    decodeStream (List.replicate 17 0xAA) =
      (.collecting (List.replicate 7 0xAA), [List.replicate 8 0xAA]) := by decide

/-! ### Witnesses: for every obligation with hypotheses, a state and operands that meet them

One theorem an obligation; a clause each, at the ends of its range. -/

/-- A machine with one input. -/
def given (s : State) (x : Input) : State := { s with inputs := [x] }

/-- The machine without a counter. -/
def noCounter : State :=
  { machine { waits 0 with discards := none } [] with params := ⟨false, 32, .continueRows⟩ }

theorem witness_CommandWordsByValue :
    (0x0FF#10).toNat ≤ 0x0FF ∧ (0x000#10).toNat ≤ 0x0FF ∧
    (0x100#10).toNat = 0x100 + (0x00#8).toNat ∧ (0x1FF#10).toNat = 0x100 + (0xFF#8).toNat ∧
    (0x200 ≤ (0x200#10).toNat ∧ (0x200#10).toNat ≤ 0x2FF) ∧ (0x200 ≤ (0x2FF#10).toNat ∧ (0x2FF#10).toNat ≤ 0x2FF) ∧
    0x300 ≤ (0x300#10).toNat ∧ 0x300 ≤ (0x3FF#10).toNat := by decide

theorem witness_OnlyCounterWordsAreIllegal :
    ((given noCounter (.command 0 0x300)).inputs = .command 0 0x300#10 :: [] ∧
      (given noCounter (.command 0 0x300)).params.hasDiscardCounter = false ∧ 0x300 ≤ (0x300#10).toNat) ∧
    ((given (machine (waits 0) []) (.command 0 0x3FF)).inputs = .command 0 0x3FF#10 :: [] ∧
      (given (machine (waits 0) []) (.command 0 0x3FF)).params.hasDiscardCounter = true ∧
      0x300 ≤ (0x3FF#10).toNat) ∧
    (0x2FF#10).toNat < 0x300 := by decide

theorem witness_FeedKeyTable :
    (waits 0).Stable ∧ (holds seven).Stable ∧
    (0xF00#12 &&& 0xF00 = 0xF00) ∧ (0xEFF#12 &&& 0xF00 ≠ 0xF00 ∧ 0xEFF#12 &&& 0x800 = 0x800) ∧
    (0x7AA#12 &&& 0x8FF = 0x0AA) ∧ (0x0AB#12 &&& 0x8FF ≠ 0x0AA ∧ 0x0AB#12 &&& 0x800 = 0x000) := by decide

theorem witness_ByteClassesSelectBehaviours :
    ((waits 0).Stable ∧ (waits 0).mode = .waiting) ∧
    ((holds []).Stable ∧ (holds []).mode = .collecting ∧ (holds []).cnt.toNat ≤ 6) ∧
    ((holds [1, 2, 3, 4, 5, 6]).Stable ∧ (holds [1, 2, 3, 4, 5, 6]).mode = .collecting ∧
      (holds [1, 2, 3, 4, 5, 6]).cnt.toNat ≤ 6) ∧
    ((holds seven).Stable ∧ (holds seven).mode = .collecting ∧ (holds seven).cnt.toNat = 7) := by decide

theorem witness_DecodeInvertsEncode :
    (Instr.feedRow 6 0xAA).wellFormed = true ∧ (Instr.feedRow 6 0xAA) ≠ .rdcnt ∧ Instr.rdcnt.wellFormed = true := by
  decide

theorem witness_EncodeInvertsDecode :
    (decodeCommand true 0x1FF = .ok (.feed 0xFF) ∧ opField 0x1FF = 0b01#2) ∧
    (decodeCommand true 0x300 = .ok .rdcnt ∧ dataField 0x300 = 0) ∧
    keySync 0x800 = 1 ∧ keyCount 0x0FF = 0 := by decide

theorem witness_StepRunsTheDecodedInstruction :
    ((given (machine (waits 0) []) (.command 0 0x1AA)).inputs = .command 0 0x1AA#10 :: [] ∧
      decodeCommand (given (machine (waits 0) []) (.command 0 0x1AA)).params.hasDiscardCounter 0x1AA =
        .ok (.feed 0xAA)) ∧
    (given (machine (waits 0) []) (.request [])).inputs = .request [] :: [] ∧ (machine (waits 0) []).inputs = [] := by
  decide

theorem witness_UnconstructedInstanceIsRefused :
    State.decoder? { machine (waits 0) [] with active := 1 } 1 = none ∧ Instr.idle ≠ .reset ∧
      (∀ data, Instr.idle ≠ .encode data) := ⟨by decide, by decide, by simp⟩

theorem witness_IdleChangesNothing : (machine (waits 0) []).decoder? 0 = some (waits 0) := by decide

theorem witness_FeedHdrStartsFrame :
    (0x4AA#12 &&& 0x8FF = 0x0AA) ∧
    ((machine (waits 2) []).decoder? 0 = some (waits 2) ∧ (waits 2).mode = .waiting) := by decide

theorem witness_FeedDiscardDropsByte :
    (0x7FF#12 &&& 0x8FF ≠ 0x0AA ∧ 0x7FF#12 &&& 0x800 = 0x000) ∧
    ((machine (waits 0xFFFFFFFF) []).decoder? 0 = some (waits 0xFFFFFFFF) ∧ (waits 0xFFFFFFFF).mode = .waiting ∧
      0x2A#8 ≠ 0xAA) := by decide

theorem witness_FeedRowStoresByte :
    (0x800#12 &&& 0xF00 ≠ 0xF00 ∧ 0x800#12 &&& 0x800 = 0x800) ∧
    ((machine (holds []) []).decoder? 0 = some (holds []) ∧ (holds []).Holds [] ∧ (0#3).toNat = 0) ∧
    ((machine (holds [1, 2, 3, 4, 5, 6]) []).decoder? 0 = some (holds [1, 2, 3, 4, 5, 6]) ∧
      (holds [1, 2, 3, 4, 5, 6]).Holds [1, 2, 3, 4, 5, 6] ∧ (6#3).toNat = 6) := by decide

theorem witness_FeedLastCompletesBitmap :
    (0xFFF#12 &&& 0xF00 = 0xF00) ∧
    ((machine (holds seven) []).decoder? 0 = some (holds seven) ∧ (holds seven).Holds seven ∧ seven.length = 7) := by
  decide

theorem witness_DeliveryWritesEightRows :
    (machine (holds seven) accepts).decoder? 0 = some (holds seven) ∧ (holds seven).Holds seven ∧ seven.length = 7 ∧
      (∀ r, r ≤ 7 → (machine (holds seven) accepts).sink.answer r = .accept) := by
  refine ⟨by decide, by decide, by decide, fun r hr => ?_⟩
  interval_cases r <;> rfl

theorem witness_AbortStopsAtFirstRejection :
    (machine (holds seven) rejects35).params.sinkErrorPolicy = .abortRemaining ∧
      (machine (holds seven) rejects35).decoder? 0 = some (holds seven) ∧ (holds seven).Holds seven ∧
      (∀ j, j < 3 → (machine (holds seven) rejects35).sink.answer j = .accept) ∧
      (machine (holds seven) rejects35).sink.answer 3 = .reject := by
  refine ⟨by decide, by decide, by decide, fun j hj => ?_, by decide⟩
  interval_cases j <;> rfl

theorem witness_ContinueIssuesEveryCall :
    (continuing (holds seven) [.reject]).params.sinkErrorPolicy = .continueRows ∧
      (continuing (holds seven) [.reject]).decoder? 0 = some (holds seven) ∧ (holds seven).Holds seven ∧
      (∀ j, j < 0 → (continuing (holds seven) [.reject]).sink.answer j = .accept) ∧
      (continuing (holds seven) [.reject]).sink.answer 0 = .reject :=
  ⟨by decide, by decide, by decide, by simp, by decide⟩

/-- The four clauses of `FeedDispatches`. -/
theorem witness_FeedDispatches :
    ((machine (waits 0) []).decoder? 0 = some (waits 0) ∧ (waits 0).Stable ∧ (waits 0).mode = .waiting) ∧
    ((machine (holds seven) []).decoder? 0 = some (holds seven) ∧ (holds seven).Stable ∧
      (holds seven).mode = .collecting ∧ (holds seven).cnt.toNat = 7) ∧
    ((machine (holds [9]) []).decoder? 0 = some (holds [9]) ∧ (holds [9]).Stable ∧
      (holds [9]).mode = .collecting ∧ (holds [9]).cnt.toNat ≤ 6 ∧ (1#3).toNat = (holds [9]).cnt.toNat) ∧
    (0x1FF#10).toNat = 0x100 + (0xFF#8).toNat := by decide

theorem witness_RdcntReadsCounter :
    ((machine (waits 5) []).decoder? 0 = some (waits 5) ∧ (waits 5).discards = some 5) ∧
    (noCounter.decoder? 0 = some { waits 0 with discards := none } ∧ ({ waits 0 with discards := none } : Decoder).discards = none) ∧
    0x300 ≤ (0x300#10).toNat := by decide

theorem witness_EncodeResult : eight.length = 8 ∧ ([] : List Byte).length ≠ 8 := by decide

theorem witness_UnselectedBehaviourIsRefused :
    ((machine (holds [9]) []).decoder? 0 = some (holds [9]) ∧ (holds [9]).mode = .collecting ∧
      (holds [9]).cnt.toNat ≠ (2#3).toNat ∧ (holds [9]).cnt.toNat ≠ 7) ∧
    ((machine (waits 0) []).decoder? 0 = some (waits 0) ∧ (waits 0).mode = .waiting) := by decide

/-- A state outside the invariant: `S.cnt = 7` with slot 2 empty. -/
def holey : Decoder := { holds seven with row := #v[some 1, some 2, none, some 4, some 5, some 6, some 7, none] }

theorem witness_UnwrittenSlotFaults :
    (machine holey []).decoder? 0 = some holey ∧ holey.mode = .collecting ∧ holey.cnt.toNat = 7 ∧
      holey.memRead 2 = none ∧ (∀ j, j < 2 → (holey.memRead j).isSome = true) := by
  refine ⟨by decide, by decide, by decide, by decide, fun j hj => ?_⟩
  interval_cases j <;> rfl

/-- A next state of `exec`, for the statements about every instruction: `EveryInstructionIsFramed`,
`CounterIsWrittenOnlyByDiscardAndReset`, `OnlyCompletionCallsTheSink`, `BitmapsAreWhole`, `StatusesAndTheirCauses`. -/
theorem witness_next_state_of_exec :
    (after (exec (.feed 8) (machine (holds seven) accepts))).isSome = true ∧
    (after (exec .reset (machine (holds seven) []))).isSome = true ∧
    (after (exec (.encode seven) (machine (waits 0) []))).isSome = true ∧
    (after (exec (.feed 0x55) (machine (waits 0) []))).isSome = true := by decide

/-- `ModeIsWrittenOnlyByThree`: the mode does change. -/
theorem witness_ModeIsWrittenOnlyByThree :
    (decoderAfter (exec (.feed 0xAA) (machine (waits 0) []))).map (·.mode) = some .collecting ∧
    (decoderAfter (exec (.feed 8) (machine (holds seven) accepts))).map (·.mode) = some .waiting := by decide

theorem witness_EarlierStatusesChangeNothing :
    refusal (exec .feedHdr (machine (holds []) [])) = some .keyNotSelected ∧
    (after (exec .idle (machine (holds []) []))).isSome = true ∧
    after (exec (.feedLast 8) (machine holey [])) = none ∧ refusal (exec (.feedLast 8) (machine holey [])) = none := by
  decide

theorem witness_RowValuesNeverSteerFraming :
    (machine (holds seven) []).decoder? 0 = some (holds seven) ∧ (holds seven).Stable ∧
      (holds seven).mode = .collecting ∧ (holds [1]).cnt.toNat ≤ 6 ∧
      (machine (holds [1]) []).decoder? 0 = some (holds [1]) ∧ (holds [1]).Stable := by decide

theorem witness_machine_meets_invariant :
    (machine (holds seven) []).Inv ∧ (machine (waits 3) []).Inv ∧ noCounter.Inv := by decide

/-- `StepKeepsInvariant`, `SoundMachineNeverFaults`, `EveryLegalInputCompletes`: a sound machine with an input. -/
theorem witness_StepKeepsInvariant :
    (given (machine (holds seven) []) (.command 0 0x108)).Inv ∧
      (after (step (given (machine (holds seven) []) (.command 0 0x108)))).isSome = true := by decide

theorem witness_SoundMachineNeverFaults :
    (given noCounter (.command 0 0x300)).Inv ∧
      refusal (step (given noCounter (.command 0 0x300))) = some (.illegalCommandWord 0x300) ∧
    (given noCounter (.command 1 0x000)).Inv ∧
      refusal (step (given noCounter (.command 1 0x000))) = some (.notConstructed 1) := by decide

theorem witness_EveryLegalInputCompletes :
    ((given (machine (waits 0) []) (.command 0 0x3FF)).Inv ∧
      (given (machine (waits 0) []) (.command 0 0x3FF)).params.hasDiscardCounter = true ∧
      ((given (machine (waits 0) []) (.command 0 0x3FF)).decoder? 0).isSome = true) ∧
    ((given noCounter (.command 5 0x2FF)).Inv ∧ (0x2FF#10).toNat < 0x300 ∧ 0x200 ≤ (0x2FF#10).toNat) ∧
    (given noCounter (.request [])).Inv := by decide

theorem witness_ListViewIsFaithful :
    (holds [1, 2]).Stable ∧ (holds [1, 2]).mode = .collecting ∧ 1 < (holds [1, 2]).cnt.toNat ∧
      (holds [1, 2]).view = (holds [1, 2]).view ∧ (waits 0).Stable ∧ (waits 1).view = (waits 0).view := by decide

/-- The link laws from `W`: `DecoderComputesStreamFunction`, `RoundTrip`, `EncoderAndDecoderAreInverse`,
`NoiseIsHarmless`, `NoFalseRestart`, `LostRowByteMisframes`, `MisframingCanLastForever`. -/
theorem witness_waiting_instance :
    (machine (waits 0) accepts).decoder? 0 = some (waits 0) ∧ (waits 0).IsWaiting ∧
      (waits 0).CounterSound (machine (waits 0) accepts).params ∧ eight.length = 8 ∧ 0xAA ∉ eight ∧
      (∀ r, r ≤ 7 → (machine (waits 0) accepts).sink.answer r = .accept) := by
  refine ⟨by decide, by decide, by decide, by decide, by decide, fun r hr => ?_⟩
  interval_cases r <;> rfl

theorem witness_EncoderAndDecoderAreInverse :
    encodeRequest eight = (.frame (0xAA :: eight), .ok) ∧
      (∀ p ∈ [([0x01, 0x02], eight), ([], List.replicate 8 0xAA)], 0xAA ∉ p.1 ∧ p.2.length = 8) ∧
      0xAA ∉ ([0x99] : List Byte) := by decide

theorem witness_MisframingCanLastForever :
    ([0x00, 0xAA, 0, 0, 0, 0, 0, 0] : List Byte).length = 8 ∧
      ([0x00, 0xAA, 0, 0, 0, 0, 0, 0] : List Byte)[1]? = some 0xAA := by decide

theorem witness_FrameInProgressCompletes :
    (machine (holds [1, 2, 3, 4, 5]) []).decoder? 0 = some (holds [1, 2, 3, 4, 5]) ∧
      (holds [1, 2, 3, 4, 5]).Holds [1, 2, 3, 4, 5] ∧
      ([6, 7, 8] : List Byte).length = 8 - ([1, 2, 3, 4, 5] : List Byte).length ∧
      ([6, 7] : List Byte).length < 8 - ([1, 2, 3, 4, 5] : List Byte).length := by decide

/-- From `C(0)`, two bytes into a frame: the worst case of 42_link R129. -/
theorem witness_RecoveryIsBounded :
    (machine (holds []) []).decoder? 0 = some (holds []) ∧ (holds []).Stable ∧
      (∀ B ∈ [eight, eight, eight], B.length = 8 ∧ 0xAA ∉ B) ∧ 2 + 17 ≤ 9 * [eight, eight, eight].length := by decide

/-- `IdlesChangeNoRun`, `InstancesAreIsolated`, `DifferentUnitsCommute`: a run with an IDLE, a request, and commands to
two instances. -/
theorem witness_runs :
    (after (runInputs [.command 0 0x000, .command 1 0x200, .request eight, .command 0 0x1AA]
      (machine (waits 0) []))).isSome = true ∧
    (after (runInputs [.command 1 0x200, .command 0 0x1AA] (machine (waits 0) []))).isSome = true ∧
    (Input.command 1 0x200).addresses 0 = false ∧ (Input.command 0 0x1AA).addresses 1 = false := by decide

/-- `IdlesChangeNoRun`: IDLE commands put into a run, to an instance that is constructed; and a gap in a frame. -/
theorem witness_IdlesChangeNoRun :
    (after (runInputs ([Input.command 0 0x0FF, .command 0 0x1AA].filter fun x => !x.isIdle)
      (machine (waits 0) []))).isSome = true ∧
    (Input.command 0 0x0FF).isIdle = true ∧ ((machine (waits 0) []).decoder? 0).isSome = true ∧
    (waits 0).IsWaiting ∧ ([1, 2, 3, 4, 5] : List Byte).length = 5 ∧ ([6, 7, 8] : List Byte).length = 3 := by decide

theorem witness_DifferentUnitsCommute :
    ∀ id, ¬ ((Input.command 1 0x200).addresses id = true ∧ (Input.command 0 0x1AA).addresses id = true) := by
  intro id
  simp only [Input.addresses, beq_iff_eq]
  omega

theorem witness_CompletedFrameIsLikeReset :
    (machine (waits 0) []).params = (machine (waits 9) []).params ∧
      (machine (waits 0) []).sink = (machine (waits 9) []).sink ∧
      (∀ id, ((machine (waits 0) []).decoder? id).map Decoder.framing =
        ((machine (waits 9) []).decoder? id).map Decoder.framing) ∧
      (∀ x ∈ [Input.command 0 0x1AA, .command 0 0x200], x.isRdcnt = false) ∧
      (after (runInputs [.command 0 0x1AA, .command 0 0x200] (machine (waits 0) []))).isSome = true ∧
      (after (exec (.feedLast 8) (machine (holds seven) accepts))).isSome = true := by
  refine ⟨by decide, by decide, fun id => ?_, by decide, by decide, by decide⟩
  by_cases h : id = 0
  · subst h; rfl
  · simp [machine, State.decoder?, lookupDecoder, h]

end Sys2Proof.Machine.Tests
end

section
/-! PROOFS. What a step runs for each next input (00_scope R11, R12), and the fault of FEED.LAST (00_scope R15). -/

namespace Sys2Proof.Machine

/-! ### A step with nothing issued -/

theorem step_no_input {s : State} (h : s.inputs = []) : step s = .next s := by
  simp [step, fetch, h]

/-! ### Reads of the row buffer -/

/-- An append writes the slot the count names and no other. -/
theorem Decoder.memRead_append_ne {d : Decoder} {j : Nat} (b : Byte) (h : j ≠ d.cnt.toNat) :
    (d.append b).memRead j = d.memRead j := by
  simp [Decoder.memRead, Vector.getElem?_setIfInBounds_ne h.symm]

/-- A read of consecutive slots faults at the first one that holds no value. -/
theorem Decoder.readRows_unwritten {d : Decoder} {i k n : Nat} (hik : i ≤ k) (hkn : k < i + n)
    (hwritten : ∀ j, i ≤ j → j < k → (d.memRead j).isSome = true) (hempty : d.memRead k = none) :
    d.readRows i n = .error (.unwrittenSlot k) := by
  induction n generalizing i with
  | zero => omega
  | succ n ih =>
    rcases hik.eq_or_lt with rfl | hlt
    · simp [Decoder.readRows, hempty]
    · obtain ⟨v, hv⟩ := Option.isSome_iff_exists.1 (hwritten i le_rfl hlt)
      have hrest := ih (i := i + 1) hlt (by omega) fun j hj => hwritten j (by omega)
      simp [Decoder.readRows, hv, hrest]

/-- FEED.LAST stops with the fault of its read. -/
theorem execFeedLast_fault {s : State} {d : Decoder} {b : Byte} {e : Fault} (h : s.decoder? s.active = some d)
    (hm : d.mode = .collecting) (hc : d.cnt = 7) (he : (d.append b).readBitmap = .error e) :
    execFeedLast b s = .fault e := by
  simp [execFeedLast, onActive_eq h, hm, hc, he]

/-! ### The statements -/

/-- Settles O24: with count 7 the append writes slot 7 only, so the read meets the empty slot, and no empty one before
it. -/
theorem unwrittenSlotFaults : Obligations.UnwrittenSlotFaults := by
  intro s d b i hd hm hc hi hempty hwritten
  have hread : ∀ j, j ≤ i → (d.append b).memRead j = d.memRead j := fun j hj =>
    Decoder.memRead_append_ne b (by omega)
  have hfault : (d.append b).readBitmap = .error (.unwrittenSlot i) := by
    refine Decoder.readRows_unwritten i.zero_le (show i < 0 + 8 by omega) (fun j _ hj => ?_) ?_
    · rw [hread j hj.le]
      exact hwritten j hj
    · rw [hread i le_rfl]
      exact hempty
  exact execFeedLast_fault hd hm (BitVec.eq_of_toNat_eq hc) hfault

/-- Settles O8, by the next input: a command, a request, or none. -/
theorem stepRunsTheDecodedInstruction : Obligations.StepRunsTheDecodedInstruction :=
  fun _ _ => ⟨fun _ _ _ hinput hdecode => step_command hinput hdecode, fun _ => step_request, step_no_input⟩

end Sys2Proof.Machine
end

section
/-! PROOFS. What a step can do and leaves alone (10_state section 4), and the frame of every instruction. -/

namespace Sys2Proof.Machine

/-! ### What a step runs -/

/-- A word that spells no command is refused, whatever comes after it. -/
theorem step_illegal {s : State} {id : Nat} {w : CommandWord} {rest : List Input} {e : DecodeReject}
    (h : s.inputs = .command id w :: rest) (hd : decodeCommand s.params.hasDiscardCounter w = .error e) :
    step s = .refused (.illegalCommandWord w) := by
  simp [step, fetch, h, hd]

/-- A step that takes a command and answers a next state ran the instruction the word spells. -/
theorem step_command_next {s t : State} {id : Nat} {w : CommandWord} {rest : List Input}
    (h : s.inputs = .command id w :: rest) (hs : step s = .next t) :
    ∃ i, decodeCommand s.params.hasDiscardCounter w = .ok i ∧
      exec i { s with inputs := rest, active := id } = .next t := by
  cases hd : decodeCommand s.params.hasDiscardCounter w with
  | ok i => exact ⟨i, rfl, (step_command h hd).symm.trans hs⟩
  | error e => simp [step_illegal h hd] at hs

/-- A step that answers a next state did nothing, or ran one instruction on some instance. -/
theorem step_next_cases {s t : State} (h : step s = .next t) :
    t = s ∨ ∃ i rest id, exec i { s with inputs := rest, active := id } = .next t := by
  cases hin : s.inputs with
  | nil => exact .inl (Host.Outcome.next.inj (h.symm.trans (step_no_input hin)))
  | cons x rest =>
    refine .inr ?_
    cases x with
    | request data => exact ⟨.encode data, rest, s.active, (step_request hin).symm.trans h⟩
    | command id w =>
      obtain ⟨i, -, hi⟩ := step_command_next hin h
      exact ⟨i, rest, id, hi⟩

/-! ### Frames -/

theorem State.sameElsewhere_setDecoder (s : State) (d : Decoder) : s.SameElsewhere (s.setDecoder s.active d) :=
  ⟨rfl, rfl, rfl, fun _ hj => s.decoder?_setDecoder_ne hj d⟩

/-- A FEED behaviour changes the addressed instance, and adds one record of that instance. -/
theorem FeedNext.framed {b : Byte} {s t : State} {d : Decoder} (h : FeedNext b s d t) :
    s.SameElsewhere t ∧ ∃ r : StepRecord, t.outputs = s.outputs ++ [r] ∧ r.unit = .decoder s.active := by
  cases h with
  | hdr => exact ⟨s.sameElsewhere_setDecoder _, _, rfl, rfl⟩
  | discard => exact ⟨s.sameElsewhere_setDecoder _, _, rfl, rfl⟩
  | row => exact ⟨s.sameElsewhere_setDecoder _, _, rfl, rfl⟩
  | last => exact ⟨s.sameElsewhere_setDecoder _, _, rfl, rfl⟩

theorem FeedInstr.ne_encode {b : Byte} {i : Instr} (h : FeedInstr b i) (data : List Byte) : i ≠ .encode data := by
  cases h <;> simp

/-- Settles O25, by the cases of `exec_next_cases`: each sets the addressed instance at most, and ends the step once. -/
theorem everyInstructionIsFramed : Obligations.EveryInstructionIsFramed := by
  intro i s t h
  cases exec_next_cases h with
  | idle => exact ⟨⟨rfl, rfl, rfl, fun _ _ => rfl⟩, _, rfl, by simp, fun _ => rfl⟩
  | reset => exact ⟨s.sameElsewhere_setDecoder _, _, rfl, by simp, fun _ => rfl⟩
  | rdcnt => exact ⟨⟨rfl, rfl, rfl, fun _ _ => rfl⟩, _, rfl, by simp, fun _ => rfl⟩
  | encode data => exact ⟨⟨rfl, rfl, rfl, fun _ _ => rfl⟩, _, rfl, by simp, fun hu => absurd rfl hu⟩
  | feed _ b d _ hi hd hn =>
    obtain ⟨helse, r, hout, hunit⟩ := hn.framed
    have hencode : ¬ ∃ data, i = .encode data := fun ⟨data, he⟩ => hi.ne_encode data he
    exact ⟨helse, r, hout, by simp [hunit, hencode], fun _ => hunit⟩

end Sys2Proof.Machine
end

section
/-! PROOFS. The invariant (10_state R24, R27): it holds after reset, every step keeps it, and a machine that meets it
stops only where the spec gives no step (10_state R28). -/

namespace Sys2Proof.Machine

/-! ### The instances an operation makes are sound -/

theorem Decoder.constructed_isWaiting (p : Params) : (Decoder.constructed p).IsWaiting :=
  ⟨rfl, rfl, fun i => by simp⟩

theorem Decoder.constructed_counterSound (p : Params) : (Decoder.constructed p).CounterSound p := by
  cases h : p.hasDiscardCounter <;> simp [Decoder.CounterSound, h]

theorem Decoder.startFrame_holds (d : Decoder) : d.startFrame.Holds [] :=
  ⟨rfl, rfl, by simp, by simp⟩

theorem Decoder.countDiscard_counterSound {p : Params} {d : Decoder} (h : d.CounterSound p) :
    (d.countDiscard p).CounterSound p := by
  obtain ⟨hsome, -⟩ := h
  refine ⟨by simpa using hsome, ?_⟩
  cases hd : d.discards with
  | none => simp [hd]
  | some n => simp [hd, bumpDiscards, Nat.mod_lt]

/-- A stable instance that collects holds its rows. -/
theorem Decoder.Stable.holds {d : Decoder} (h : d.Stable) (hm : d.mode = .collecting) : d.Holds d.rows := by
  refine h.shape.resolve_left fun hw => ?_
  simp [hw.1] at hm

/-- A stable instance that waits is in the state `W`. -/
theorem Decoder.Stable.isWaiting {d : Decoder} (h : d.Stable) (hm : d.mode = .waiting) : d.IsWaiting := by
  refine h.resolve_right fun hc => ?_
  simp [hc.1] at hm

/-- A row byte that does not complete the frame leaves a stable instance stable. -/
theorem Decoder.Stable.append {d : Decoder} (b : Byte) (h : d.Stable) (hm : d.mode = .collecting)
    (hc : d.cnt.toNat ≤ 6) : (d.append b).Stable := by
  have hrows := h.holds hm
  have hlen : d.cnt.toNat = d.rows.length := hrows.2.1
  exact (Decoder.append_holds b hrows (hlen ▸ hc)).stable

/-! ### The invariant -/

theorem State.Inv.decoder {s : State} {id : Nat} {d : Decoder} (h : s.Inv) (hd : s.decoder? id = some d) :
    d.Stable ∧ d.CounterSound s.params :=
  h.2.2 (id, d) (lookupDecoder_mem hd)

/-- A sound instance put into a sound machine. -/
theorem State.Inv.setDecoder {s : State} {d : Decoder} (id : Nat) (h : s.Inv) (hstable : d.Stable)
    (hcounter : d.CounterSound s.params) : (s.setDecoder id d).Inv := by
  obtain ⟨hp, hrising, hall⟩ := h
  refine ⟨hp, risingFrom_insertDecoder id d hrising, fun x hx => ?_⟩
  rcases mem_insertDecoder hx with rfl | hx
  · exact ⟨hstable, hcounter⟩
  · exact hall x hx

theorem FeedNext.keeps_inv {b : Byte} {s t : State} {d : Decoder} (h : FeedNext b s d t) (hs : s.Inv)
    (hd : s.decoder? s.active = some d) : t.Inv := by
  obtain ⟨hstable, hcounter⟩ := hs.decoder hd
  cases h with
  | hdr => exact hs.setDecoder s.active d.startFrame_holds.stable hcounter
  | discard hm =>
    have hwaiting : (d.countDiscard s.params).IsWaiting := hstable.isWaiting hm
    exact hs.setDecoder s.active (.inl hwaiting) (Decoder.countDiscard_counterSound hcounter)
  | row hm hc => exact hs.setDecoder s.active (hstable.append b hm hc) hcounter
  | last => exact hs.setDecoder s.active (.inl d.endFrame_isWaiting) hcounter

theorem exec_keeps_inv {i : Instr} {s t : State} (hs : s.Inv) (h : exec i s = .next t) : t.Inv := by
  cases exec_next_cases h with
  | idle => exact hs
  | reset =>
    exact hs.setDecoder s.active (.inl (Decoder.constructed_isWaiting _)) (Decoder.constructed_counterSound _)
  | rdcnt => exact hs
  | encode => exact hs
  | feed _ b d _ hi hd hn => exact hn.keeps_inv hs hd

/-- Settles O34: the invariant does not speak of the inputs or the address, so it is that of the instruction run. -/
theorem stepKeepsInvariant : Obligations.StepKeepsInvariant := by
  intro s t hs h
  rcases step_next_cases h with rfl | ⟨i, rest, id, hi⟩
  · exact hs
  · have htaken : ({ s with inputs := rest, active := id } : State).Inv := hs
    exact exec_keeps_inv htaken hi

/-- A machine that has just been reset meets the invariant, whatever its parameters. -/
theorem State.resetWith_inv {p : Params} (hp : p.wellFormed = true) : (State.resetWith p).Inv := by
  refine ⟨hp, rfl, fun x hx => ?_⟩
  obtain rfl : x = (0, Decoder.constructed p) := List.mem_singleton.1 hx
  exact ⟨.inl (Decoder.constructed_isWaiting p), Decoder.constructed_counterSound p⟩

/-- Settles O33: the default counter width is at least 1, and instance 0 is the constructed one. -/
theorem resetMeetsInvariant : Obligations.ResetMeetsInvariant :=
  ⟨State.resetWith_inv rfl, rfl⟩

/-! ### Where a sound machine stops -/

/-- The only word that spells no command is that of RDCNT, on a machine without the counter (30_encoding R70). -/
theorem decodeCommand_error {counter : Bool} {w : CommandWord} {e : DecodeReject}
    (h : decodeCommand counter w = .error e) : counter = false ∧ 0x300 ≤ w.toNat := by
  have hop := opField_toNat w
  unfold decodeCommand at h
  split at h
  · cases h
  · cases h
  · cases h
  · rename_i h0 h1 h2
    have hne : (opField w).toNat ≠ 0 ∧ (opField w).toNat ≠ 1 ∧ (opField w).toNat ≠ 2 := ⟨h0, h1, h2⟩
    cases counter with
    | true => cases h
    | false => exact ⟨rfl, by omega⟩

/-- The instructions a command word can spell. -/
inductive CommandInstr (counter : Bool) : Instr → Prop
  | idle : CommandInstr counter .idle
  | feed (b : Byte) : CommandInstr counter (.feed b)
  | reset : CommandInstr counter .reset
  | rdcnt (hc : counter = true) : CommandInstr counter .rdcnt

theorem decodeCommand_ok {counter : Bool} {w : CommandWord} {i : Instr} (h : decodeCommand counter w = .ok i) :
    CommandInstr counter i := by
  unfold decodeCommand at h
  split at h
  · cases h; exact .idle
  · cases h; exact .feed _
  · cases h; exact .reset
  · split at h
    · cases h; exact .rdcnt ‹_›
    · cases h

/-- A FEED to a stable instance completes. -/
theorem exec_feed_completes {s : State} {d : Decoder} (b : Byte) (hd : s.decoder? s.active = some d)
    (h : d.Stable) : ∃ t, exec (.feed b) s = .next t := by
  cases hm : d.mode with
  | waiting =>
    by_cases hb : b = Config.headerByte
    · subst hb
      exact ⟨_, exec_feed_waiting_header hd hm⟩
    · exact ⟨_, exec_feed_waiting_noise hd hm hb⟩
  | collecting =>
    have hrows := h.holds hm
    have hle : d.rows.length ≤ 7 := hrows.2.2.1
    have hlen : d.cnt.toNat = d.rows.length := hrows.2.1
    by_cases hc : d.cnt.toNat ≤ 6
    · exact ⟨_, exec_feed_row hd hm hc⟩
    · exact ⟨_, exec_feed_last hd hrows (by omega)⟩

/-- On a sound machine a command to a constructed instance completes. -/
theorem exec_command_completes {s : State} {i : Instr} {d : Decoder} (hs : s.Inv)
    (hi : CommandInstr s.params.hasDiscardCounter i) (hd : s.decoder? s.active = some d) :
    ∃ t, exec i s = .next t := by
  obtain ⟨hstable, hsome, -⟩ := hs.decoder hd
  cases hi with
  | idle => exact ⟨_, onActive_eq hd _⟩
  | feed b => exact exec_feed_completes b hd hstable
  | reset => exact ⟨_, rfl⟩
  | rdcnt hc =>
    obtain ⟨n, hn⟩ := Option.isSome_iff_exists.1 (hsome.trans hc)
    refine ⟨s.finishQuiet (.count n), (onActive_eq hd _).trans ?_⟩
    rw [hn]

/-- A command to an instance never constructed is RESET, which completes, or is refused. -/
theorem exec_command_unconstructed {s : State} {i : Instr} (hi : CommandInstr s.params.hasDiscardCounter i)
    (hd : s.decoder? s.active = none) :
    (∃ t, exec i s = .next t) ∨ exec i s = .refused (.notConstructed s.active) := by
  cases hi with
  | idle => exact .inr (onActive_none hd _)
  | feed b => exact .inr (onActive_none hd _)
  | reset => exact .inl ⟨_, rfl⟩
  | rdcnt => exact .inr (onActive_none hd _)

/-- Every step of a sound machine: a next state, or one of the two refusals. -/
theorem step_sound {s : State} (hs : s.Inv) :
    (∃ t, step s = .next t) ∨ ∃ id w rest e, step s = .refused e ∧ s.inputs = .command id w :: rest ∧
      ((e = .illegalCommandWord w ∧ s.params.hasDiscardCounter = false ∧ 0x300 ≤ w.toNat) ∨
       (e = .notConstructed id ∧ s.decoder? id = none)) := by
  cases hin : s.inputs with
  | nil => exact .inl ⟨s, step_no_input hin⟩
  | cons x rest =>
    cases x with
    | request data => exact .inl ⟨_, step_request hin⟩
    | command id w =>
      cases hw : decodeCommand s.params.hasDiscardCounter w with
      | error e => exact .inr ⟨id, w, rest, _, step_illegal hin hw, rfl, .inl ⟨rfl, decodeCommand_error hw⟩⟩
      | ok i =>
        rw [step_command hin hw]
        have htaken : ({ s with inputs := rest, active := id } : State).Inv := hs
        have hi := decodeCommand_ok hw
        cases hd : s.decoder? id with
        | some d => exact .inl (exec_command_completes htaken hi hd)
        | none =>
          have hrun := exec_command_unconstructed (s := { s with inputs := rest, active := id }) hi hd
          exact hrun.imp_right fun hrefused => ⟨id, w, rest, _, hrefused, rfl, .inr ⟨rfl, hd⟩⟩

/-- Settles O35: `step_sound` leaves no fault, and the cause of its refusal is the cause of any. -/
theorem soundMachineNeverFaults : Obligations.SoundMachineNeverFaults := by
  intro s hs
  rcases step_sound hs with ⟨t, ht⟩ | ⟨id, w, rest, e, he, hin, hcause⟩
  · simp [ht]
  · refine ⟨by simp [he], fun e' he' => ⟨id, w, rest, hin, ?_⟩⟩
    obtain rfl : e = e' := by simpa [he] using he'
    exact hcause

end Sys2Proof.Machine
end

section
/-! PROOFS. Who writes the mode (10_state R21), and the list view of an instance (10_state R29). -/

namespace Sys2Proof.Machine

/-! ### The mode -/

/-- A FEED behaviour starts a frame, ends one, or leaves the mode. -/
theorem FeedNext.mode_cases {b : Byte} {s t : State} {d d' : Decoder} (h : FeedNext b s d t)
    (hd' : t.decoder? s.active = some d') :
    d'.mode = d.mode ∨ (d.mode = .waiting ∧ b = Config.headerByte ∧ d'.mode = .collecting) ∨
      (d.mode = .collecting ∧ d.cnt.toNat = 7 ∧ d'.mode = .waiting) := by
  have hset : ∀ e, (s.setDecoder s.active e).decoder? s.active = some d' → d' = e := fun e he =>
    Option.some.inj (he.symm.trans (State.decoder?_setDecoder_self s s.active e))
  cases h with
  | hdr hm hb => obtain rfl := hset _ hd'; exact .inr (.inl ⟨hm, hb, rfl⟩)
  | discard => obtain rfl := hset _ hd'; exact .inl rfl
  | row => obtain rfl := hset _ hd'; exact .inl rfl
  | last B hm hc => obtain rfl := hset _ hd'; exact .inr (.inr ⟨hm, by simp [hc], rfl⟩)

/-- Settles O26: FEED.DISCARD and FEED.ROW run where no frame starts or ends, and a FEED writes the mode as the
behaviour it runs does. -/
theorem modeIsWrittenOnlyByThree : Obligations.ModeIsWrittenOnlyByThree := by
  intro i s t d d' h hd hd' hne
  have hsame : t.decoder? s.active ≠ some d := fun ht => hne (by rw [Option.some.inj (hd'.symm.trans ht)])
  have hinst : ∀ {e}, s.decoder? s.active = some e → e = d := fun he => Option.some.inj (he.symm.trans hd)
  cases exec_next_cases h with
  | idle => exact absurd hd hsame
  | reset =>
    have hconstructed := Option.some.inj (hd'.symm.trans (State.decoder?_setDecoder_self s s.active _))
    exact .inl ⟨rfl, by simp [hconstructed]⟩
  | rdcnt => exact absurd hd hsame
  | encode => exact absurd hd hsame
  | feed _ b e _ hi he hn =>
    obtain rfl := hinst he
    have hmode := (hn.mode_cases hd').resolve_left hne
    cases hi with
    | feed =>
      rcases hmode with ⟨-, rfl, hm⟩ | ⟨-, hc, hm⟩
      · exact .inr (.inl ⟨.inr rfl, hm⟩)
      · exact .inr (.inr ⟨⟨b, .inr rfl⟩, hc, hm⟩)
    | hdr =>
      obtain ⟨e', he', -, hw⟩ := execFeedHdr_next h
      obtain rfl := hinst he'
      rcases hmode with ⟨-, -, hm⟩ | ⟨hc, -⟩
      · exact .inr (.inl ⟨.inl rfl, hm⟩)
      · simp [hw] at hc
    | discard =>
      obtain ⟨e', he', -, hw, hb⟩ := execFeedDiscard_next h
      obtain rfl := hinst he'
      rcases hmode with ⟨-, hb', -⟩ | ⟨hc, -⟩
      · exact absurd hb' hb
      · simp [hw] at hc
    | row k =>
      obtain ⟨e', he', -, hc, hle, -⟩ := execFeedRow_next h
      obtain rfl := hinst he'
      rcases hmode with ⟨hw, -⟩ | ⟨-, h7, -⟩
      · simp [hc] at hw
      · omega
    | last =>
      obtain ⟨e', he', -, hc, -⟩ := execFeedLast_next h
      obtain rfl := hinst he'
      rcases hmode with ⟨hw, -⟩ | ⟨-, h7, hm⟩
      · simp [hc] at hw
      · exact .inr (.inr ⟨⟨b, .inl rfl⟩, h7, hm⟩)

/-! ### The list view -/

theorem Decoder.IsWaiting.rows_eq {d : Decoder} (h : d.IsWaiting) : d.rows = [] := by
  simp [Decoder.rows, Decoder.isWaiting_row h]

theorem Decoder.IsWaiting.view_eq {d : Decoder} (h : d.IsWaiting) : d.view = .waiting := by
  simp [Decoder.view, h.1]

theorem Decoder.Holds.view_eq {d : Decoder} {v : List Byte} (h : d.Holds v) : d.view = .collecting v := by
  simp [Decoder.view, h.1, h.rows_eq]

theorem Decoder.IsWaiting.framing_eq {d e : Decoder} (hd : d.IsWaiting) (he : e.IsWaiting) :
    e.framing = d.framing := by
  simp [Decoder.framing, Decoder.isWaiting_row hd, Decoder.isWaiting_row he, hd.1, he.1, hd.2.1, he.2.1]

theorem Decoder.Holds.framing_eq {d e : Decoder} {v : List Byte} (hd : d.Holds v) (he : e.Holds v) :
    e.framing = d.framing := by
  obtain ⟨hdm, hdc, -, hdr⟩ := hd
  obtain ⟨hem, hec, -, her⟩ := he
  have hcnt : e.cnt = d.cnt := BitVec.eq_of_toNat_eq (hec.trans hdc.symm)
  have hrow : e.row = d.row := Vector.toList_inj.1 (her.trans hdr.symm)
  simp [Decoder.framing, hem, hdm, hcnt, hrow]

/-- In `C(k; v)` the slot `i` holds the byte `i` of `v`. -/
theorem Decoder.Holds.memRead_eq {d : Decoder} {v : List Byte} (h : d.Holds v) {i : Nat} (hi : i < v.length) :
    d.memRead i = v[i]? := by
  obtain ⟨-, -, -, hrow⟩ := h
  simp [Decoder.memRead_eq_toList, hrow, List.getElem?_append_left, hi]

/-- Settles O37, by the two shapes of a stable state, `W` and `C(k; v)`. -/
theorem listViewIsFaithful : Obligations.ListViewIsFaithful := by
  intro d hd
  rcases hd.shape with hw | hv
  · have hcnt : d.cnt.toNat = 0 := by simp [hw.2.1]
    refine ⟨by simp [hw.rows_eq, hcnt], fun i hi => by omega, fun hm => hd.holds hm, fun e he hview => ?_⟩
    rcases he.shape with hew | hev
    · exact hw.framing_eq hew
    · simp [hw.view_eq, hev.view_eq] at hview
  · have hcnt : d.cnt.toNat = d.rows.length := hv.2.1
    refine ⟨hcnt.symm, fun i hi => hv.memRead_eq (hcnt ▸ hi), fun _ => hv, fun e he hview => ?_⟩
    rcases he.shape with hew | hev
    · simp [hew.view_eq, hv.view_eq] at hview
    · have hrows : e.rows = d.rows := by simpa [hev.view_eq, hv.view_eq] using hview
      exact hv.framing_eq (hrows ▸ hev)

end Sys2Proof.Machine
end

section
/-! PROOFS. Instances share nothing (10_state R31): a run as one instance sees it. -/

namespace Sys2Proof.Machine

open Host (Outcome)

/-- Two machines show instance `id` alike: the same parameters, state and deliveries. The sink, the other instances and
the inputs may differ. -/
structure State.SameInstance (id : Nat) (s u : State) : Prop where
  params : u.params = s.params
  decoder : u.decoder? id = s.decoder? id
  deliveries : u.deliveries id = s.deliveries id

/-- Two steps end alike, and in states that show instance `id` alike. -/
inductive SameOutcome (id : Nat) : Outcome State Fault Refusal → Outcome State Fault Refusal → Prop
  | next {t v : State} (h : t.SameInstance id v) : SameOutcome id (.next t) (.next v)
  | fault (e : Fault) : SameOutcome id (.fault e) (.fault e)
  | refused (r : Refusal) : SameOutcome id (.refused r) (.refused r)

theorem SameOutcome.next_of_next {id : Nat} {o : Outcome State Fault Refusal} {t : State}
    (h : SameOutcome id (.next t) o) : ∃ v, o = .next v ∧ t.SameInstance id v := by
  cases h with
  | next h => exact ⟨_, rfl, h⟩

/-! ### One instruction of the instance, on two machines that show it alike -/

section SameInstance

variable {id : Nat} {s u : State}

/-- Two ends of a step with the same result; the status and the events, which the sink gives, may differ. -/
theorem State.SameInstance.finish (h : s.SameInstance id u) (n : UnitId) (r : StepResult) (st st' : Status)
    (es es' : List WriteRow) : (s.finish n r st es).SameInstance id (u.finish n r st' es') := by
  refine ⟨h.params, h.decoder, ?_⟩
  rw [deliveries_append id (State.finish_outputs s n r st es),
    deliveries_append id (State.finish_outputs u n r st' es'), h.deliveries]
  rfl

variable (h : s.SameInstance id u) (hs : s.active = id) (hu : u.active = id)
include h hs hu

theorem sameInstance_setDecoder (d : Decoder) :
    (s.setDecoder s.active d).SameInstance id (u.setDecoder u.active d) := by
  rw [hs, hu]
  exact ⟨h.params, by simp, h.deliveries⟩

theorem sameInstance_finishQuiet (r : StepResult) : (s.finishQuiet r).SameInstance id (u.finishQuiet r) := by
  unfold State.finishQuiet
  rw [hs, hu]
  exact h.finish _ r _ _ _ _

theorem sameInstance_setQuiet (d : Decoder) : ((s.setDecoder s.active d).finishQuiet .nothing).SameInstance id
    ((u.setDecoder u.active d).finishQuiet .nothing) :=
  sameInstance_finishQuiet (sameInstance_setDecoder h hs hu d) hs hu _

theorem sameInstance_finishDelivery (B : List Byte) :
    (finishDelivery B s).SameInstance id (finishDelivery B u) := by
  have hsink : ∀ sk sk' : Sink,
      State.SameInstance id { s with active := id, sink := sk } { u with active := id, sink := sk' } :=
    fun _ _ => ⟨h.params, h.decoder, h.deliveries⟩
  simp only [finishDelivery, hs, hu]
  exact State.SameInstance.finish (hsink _ _) _ _ _ _ _ _

/-- An operation on the addressed instance, run on both machines. -/
theorem sameOutcome_onActive {f g : Decoder → Outcome State Fault Refusal} (hfg : ∀ d, SameOutcome id (f d) (g d)) :
    SameOutcome id (onActive s f) (onActive u g) := by
  unfold onActive
  rw [hs, hu, h.decoder]
  split
  · exact hfg _
  · exact .refused _

theorem sameOutcome_feedHdr : SameOutcome id (execFeedHdr s) (execFeedHdr u) := by
  refine sameOutcome_onActive h hs hu fun d => ?_
  split
  · exact .next (sameInstance_setQuiet h hs hu _)
  · exact .refused _

theorem sameOutcome_feedDiscard (b : Byte) : SameOutcome id (execFeedDiscard b s) (execFeedDiscard b u) := by
  refine sameOutcome_onActive h hs hu fun d => ?_
  rw [h.params]
  split
  · exact .next (sameInstance_setQuiet h hs hu _)
  · exact .refused _

theorem sameOutcome_feedRow (k : BitVec 3) (b : Byte) : SameOutcome id (execFeedRow k b s) (execFeedRow k b u) := by
  refine sameOutcome_onActive h hs hu fun d => ?_
  split
  · exact .next (sameInstance_setQuiet h hs hu _)
  · exact .refused _

theorem sameOutcome_feedLast (b : Byte) : SameOutcome id (execFeedLast b s) (execFeedLast b u) := by
  refine sameOutcome_onActive h hs hu fun d => ?_
  split
  · split
    · exact .next (sameInstance_finishDelivery (sameInstance_setDecoder h hs hu _) hs hu _)
    · exact .fault _
  · exact .refused _

theorem sameOutcome_feed (b : Byte) : SameOutcome id (execFeed b s) (execFeed b u) := by
  refine sameOutcome_onActive h hs hu fun d => ?_
  split
  · split
    · exact sameOutcome_feedHdr h hs hu
    · exact sameOutcome_feedDiscard h hs hu b
  · split
    · exact sameOutcome_feedLast h hs hu b
    · exact sameOutcome_feedRow h hs hu _ b

/-- What an instruction does to its instance depends on the parameters and that instance alone. -/
theorem sameOutcome_exec (i : Instr) : SameOutcome id (exec i s) (exec i u) := by
  cases i with
  | idle => exact sameOutcome_onActive h hs hu fun _ => .next (sameInstance_finishQuiet h hs hu _)
  | feed b => exact sameOutcome_feed h hs hu b
  | reset =>
    refine .next ?_
    rw [h.params]
    exact sameInstance_setQuiet h hs hu _
  | rdcnt =>
    refine sameOutcome_onActive h hs hu fun d => ?_
    split
    · exact .next (sameInstance_finishQuiet h hs hu _)
    · exact .refused _
  | feedLast b => exact sameOutcome_feedLast h hs hu b
  | feedRow k b => exact sameOutcome_feedRow h hs hu k b
  | feedHdr => exact sameOutcome_feedHdr h hs hu
  | feedDiscard b => exact sameOutcome_feedDiscard h hs hu b
  | encode data => exact .next (h.finish _ _ _ _ _ _)

end SameInstance

/-! ### Steps of the instance, and steps of the others -/

/-- A step that takes a command of the instance, on two machines that show it alike. -/
theorem sameOutcome_step {id : Nat} {w : CommandWord} {xs ys : List Input} {s u : State} (h : s.SameInstance id u)
    (hs : s.inputs = .command id w :: xs) (hu : u.inputs = .command id w :: ys) :
    SameOutcome id (step s) (step u) := by
  cases hw : decodeCommand s.params.hasDiscardCounter w with
  | ok i =>
    have htaken : State.SameInstance id { s with inputs := xs, active := id } { u with inputs := ys, active := id } :=
      ⟨h.params, h.decoder, h.deliveries⟩
    rw [step_command hs hw, step_command hu (h.params ▸ hw)]
    exact sameOutcome_exec htaken rfl rfl i
  | error e =>
    rw [step_illegal hs hw, step_illegal hu (h.params ▸ hw)]
    exact .refused _

/-- A record of another unit is no delivery of the instance. -/
theorem deliveries_of_other {id : Nat} {s t : State} {r : StepRecord} (hout : t.outputs = s.outputs ++ [r])
    (hr : r.unit ≠ .decoder id) : t.deliveries id = s.deliveries id := by
  have hnone : r.delivered? id = none := by
    unfold StepRecord.delivered?
    split
    · rename_i j B hunit _
      exact if_neg fun (hj : j = id) => hr (hj ▸ hunit)
    · rfl
  simp [deliveries_append id hout, hnone]

/-- An instruction of another instance leaves this one as it was. -/
theorem exec_sameInstance {id : Nat} {i : Instr} {s t : State} (hid : id ≠ s.active) (h : exec i s = .next t) :
    s.SameInstance id t := by
  obtain ⟨⟨hparams, -, -, helse⟩, r, hout, -, hunit⟩ := everyInstructionIsFramed i s t h
  have hr : r.unit ≠ .decoder id := fun hr => by simp [hr, hid] at hunit
  exact ⟨hparams, helse id hid, deliveries_of_other hout hr⟩

/-- A step that takes a request, or a command to another instance, leaves this one as it was. -/
theorem step_sameInstance {id : Nat} {x : Input} {xs : List Input} {s t : State} (hx : ¬ x.addresses id = true)
    (hin : s.inputs = x :: xs) (h : step s = .next t) : s.SameInstance id t := by
  cases x with
  | request data =>
    cases (step_request hin).symm.trans h
    exact ⟨rfl, rfl, deliveries_of_other (State.finish_outputs _ _ _ _ _) (by simp)⟩
  | command j w =>
    have hid : id ≠ j := fun hj => hx (by simp [Input.addresses, hj])
    obtain ⟨i, -, hi⟩ := step_command_next hin h
    obtain ⟨hparams, hdecoder, hdeliveries⟩ := exec_sameInstance (id := id) hid hi
    exact ⟨hparams, hdecoder, hdeliveries⟩

/-! ### Runs -/

/-- A run, and the run of the instance's own commands from a state that shows it alike. -/
theorem runInputs_sameInstance {id : Nat} {xs : List Input} {s t u : State} (h : s.SameInstance id u)
    (hrun : runInputs xs s = .next t) :
    ∃ v, runInputs (xs.filter (Input.addresses id)) u = .next v ∧ t.SameInstance id v := by
  induction xs generalizing s u with
  | nil =>
    cases (runInputs_nil s).symm.trans hrun
    exact ⟨_, runInputs_nil u, h.params, h.decoder, h.deliveries⟩
  | cons x xs ih =>
    obtain ⟨s', hstep, -, hrest⟩ := runInputs_cons_next hrun
    by_cases hx : x.addresses id = true
    · obtain ⟨w, rfl⟩ : ∃ w, x = .command id w := by
        cases x with
        | command j w => exact ⟨w, by simpa [Input.addresses] using hx⟩
        | request => cases hx
      have hgiven : State.SameInstance id { s with inputs := .command id w :: xs }
          { u with inputs := .command id w :: xs.filter (Input.addresses id) } :=
        ⟨h.params, h.decoder, h.deliveries⟩
      obtain ⟨u', hu', hsame⟩ := (hstep ▸ sameOutcome_step hgiven rfl rfl).next_of_next
      obtain ⟨v, hv, hsame'⟩ := ih hsame hrest
      rw [List.filter_cons_of_pos hx]
      exact ⟨v, (runInputs_cons hu' (step_inputs hu')).trans hv, hsame'⟩
    · obtain ⟨hparams, hdecoder, hdeliveries⟩ := step_sameInstance hx rfl hstep
      rw [List.filter_cons_of_neg hx]
      have hskip : s'.SameInstance id u :=
        ⟨h.params.trans hparams.symm, h.decoder.trans hdecoder.symm, h.deliveries.trans hdeliveries.symm⟩
      exact ih hskip hrest

/-- Settles O49: the other run starts with another sink, which the instance does not see. -/
theorem instancesAreIsolated : Obligations.InstancesAreIsolated := by
  intro s t xs id sink hrun
  have hsink : s.SameInstance id { s with sink := sink } := ⟨rfl, rfl, rfl⟩
  obtain ⟨u, hu, -, hdecoder, hdeliveries⟩ := runInputs_sameInstance hsink hrun
  exact ⟨u, hu, hdecoder, hdeliveries⟩

end Sys2Proof.Machine
end

section
/-! PROOFS. Inputs to different units commute (20_memory R52, 60_exceptions R156): each completes in either order, and an
instance sees its own commands in the same order. -/

namespace Sys2Proof.Machine

theorem State.SameInstance.symm {id : Nat} {s u : State} (h : s.SameInstance id u) : u.SameInstance id s :=
  ⟨h.params.symm, h.decoder.symm, h.deliveries.symm⟩

theorem State.SameInstance.trans {id : Nat} {s t u : State} (h : s.SameInstance id t) (h' : t.SameInstance id u) :
    s.SameInstance id u :=
  ⟨h'.params.trans h.params, h'.decoder.trans h.decoder, h'.deliveries.trans h.deliveries⟩

/-- The inputs still to come are no part of what an instance sees. -/
theorem State.sameInstance_inputs (id : Nat) (s : State) (xs : List Input) :
    s.SameInstance id { s with inputs := xs } :=
  ⟨rfl, rfl, rfl⟩

/-- Whether an input completes depends on the instance it addresses, if any: a request always completes. -/
theorem step_completes_of_sameInstance {x : Input} {xs ys : List Input} {s t u : State}
    (h : ∀ id, x.addresses id = true → s.SameInstance id u) (hstep : step { s with inputs := x :: xs } = .next t) :
    ∃ v, step { u with inputs := x :: ys } = .next v := by
  cases x with
  | request data => exact ⟨_, step_request rfl⟩
  | command id w =>
    have hsame : s.SameInstance id u := h id (by simp [Input.addresses])
    have hgiven := ((s.sameInstance_inputs id (.command id w :: xs)).symm.trans hsame).trans
      (u.sameInstance_inputs id (.command id w :: ys))
    obtain ⟨v, hv, -⟩ := (hstep ▸ sameOutcome_step hgiven rfl rfl).next_of_next
    exact ⟨v, hv⟩

/-- Two inputs to different units that complete in one order complete in the other: the first leaves the second's
instance as it was. -/
theorem runInputs_swap_completes {x y : Input} {s t : State}
    (hxy : ∀ id, ¬ (x.addresses id = true ∧ y.addresses id = true)) (hrun : runInputs [x, y] s = .next t) :
    ∃ u, runInputs [y, x] s = .next u := by
  obtain ⟨s₁, hx, -, hrest⟩ := runInputs_cons_next hrun
  obtain ⟨_, hy, -, -⟩ := runInputs_cons_next hrest
  have hkeepY : ∀ id, y.addresses id = true → s₁.SameInstance id s := fun id hid =>
    ((s.sameInstance_inputs id _).trans (step_sameInstance (fun hxid => hxy id ⟨hxid, hid⟩) rfl hx)).symm
  obtain ⟨u₁, hy'⟩ := step_completes_of_sameInstance (ys := [x]) hkeepY hy
  have hkeepX : ∀ id, x.addresses id = true → s.SameInstance id u₁ := fun id hid =>
    (s.sameInstance_inputs id _).trans (step_sameInstance (fun hyid => hxy id ⟨hid, hyid⟩) rfl hy')
  obtain ⟨u₂, hx'⟩ := step_completes_of_sameInstance (ys := []) hkeepX hx
  have hlast : runInputs [x] u₁ = .next { u₂ with inputs := [] } :=
    (runInputs_cons hx' (step_inputs hx')).trans (runInputs_nil u₂)
  exact ⟨_, (runInputs_cons hy' (step_inputs hy')).trans hlast⟩

/-- Two runs that give an instance the same commands in the same order show it alike. -/
theorem runInputs_sameInstance_of_filter_eq {id : Nat} {xs ys : List Input} {s t u : State}
    (hown : xs.filter (Input.addresses id) = ys.filter (Input.addresses id)) (ht : runInputs xs s = .next t)
    (hu : runInputs ys s = .next u) : t.SameInstance id u := by
  have hself : s.SameInstance id s := s.sameInstance_inputs id s.inputs
  obtain ⟨v, hv, htv⟩ := runInputs_sameInstance hself ht
  obtain ⟨v', hv', huv⟩ := runInputs_sameInstance hself hu
  cases (hown ▸ hv).symm.trans hv'
  exact htv.trans huv.symm

/-- Of two inputs an instance is addressed by one at most, so their order does not show in its own commands. -/
theorem filter_addresses_swap {id : Nat} {x y : Input} (h : ¬ (x.addresses id = true ∧ y.addresses id = true)) :
    [x, y].filter (Input.addresses id) = [y, x].filter (Input.addresses id) := by
  by_cases hx : x.addresses id = true
  · have hy : ¬ y.addresses id = true := fun hy => h ⟨hx, hy⟩
    simp [hx, hy]
  · simp [List.filter_cons, hx]

/-- Settles O50: the other order completes, and each instance has the same commands in both. -/
theorem differentUnitsCommute : Obligations.DifferentUnitsCommute := by
  intro s t x y hxy hrun
  obtain ⟨u, hu⟩ := runInputs_swap_completes hxy hrun
  refine ⟨u, hu, fun id => ?_⟩
  obtain ⟨-, hdecoder, hdeliveries⟩ := runInputs_sameInstance_of_filter_eq (filter_addresses_swap (hxy id)) hrun hu
  exact ⟨hdecoder, hdeliveries⟩

end Sys2Proof.Machine
end

section
/-! PROOFS. Command words (30_encoding sections 1, 2): what each word spells, by its fields and by its value. -/

namespace Sys2Proof

/-! ### The command of each operation (30_encoding R66) -/

@[simp] theorem decodeCommand_idle (counter : Bool) (data : Byte) :
    decodeCommand counter (makeCommand 0b00#2 data) = .ok .idle := by
  simp [decodeCommand]

@[simp] theorem decodeCommand_reset (counter : Bool) (data : Byte) :
    decodeCommand counter (makeCommand 0b10#2 data) = .ok .reset := by
  simp [decodeCommand]

@[simp] theorem decodeCommand_rdcnt (counter : Bool) (data : Byte) :
    decodeCommand counter (makeCommand 0b11#2 data) = if counter then .ok .rdcnt else .error .noSuchCommand := by
  simp [decodeCommand]

theorem operation_cases (op : BitVec 2) : op = 0b00#2 ∨ op = 0b01#2 ∨ op = 0b10#2 ∨ op = 0b11#2 := by
  revert op
  decide

/-! ### Words by value -/

/-- A word whose value lies in the range of an operation is that operation with the word's data. -/
theorem makeCommand_of_value {w : CommandWord} {op : BitVec 2} (h : w.toNat / 256 = op.toNat) :
    makeCommand op (dataField w) = w := by
  have hop : opField w = op := BitVec.eq_of_toNat_eq ((opField_toNat w).trans h)
  exact hop ▸ makeCommand_fields w

/-- The words from `0x300` are RDCNT's, which is a command only where there is a counter (30_encoding R70). -/
theorem decodeCommand_of_counter_word {w : CommandWord} (h : 0x300 ≤ w.toNat) (counter : Bool) :
    decodeCommand counter w = if counter then .ok .rdcnt else .error .noSuchCommand := by
  have hlt := w.isLt
  rw [← makeCommand_of_value (w := w) (op := 0b11#2) (by simp; omega), decodeCommand_rdcnt]

/-- Settles O1: each range of values is one operation, with any data. -/
theorem commandWordsByValue : Obligations.CommandWordsByValue := by
  refine ⟨fun counter w => ⟨fun h => ?_, fun b h => ?_, fun hlo hhi => ?_, fun h => ?_⟩, rfl, rfl, rfl⟩
  · rw [← makeCommand_of_value (w := w) (op := 0b00#2) (by simp; omega), decodeCommand_idle]
  · have hw : w = makeCommand 0b01#2 b := BitVec.eq_of_toNat_eq (h.trans (makeCommand_toNat 0b01#2 b).symm)
    rw [hw, decodeCommand_feed]
  · rw [← makeCommand_of_value (w := w) (op := 0b10#2) (by simp; omega), decodeCommand_reset]
  · exact ⟨decodeCommand_of_counter_word h true, decodeCommand_of_counter_word h false⟩

open Machine in
/-- Settles O2: RDCNT's words are refused without the counter, and no other word is rejected. -/
theorem onlyCounterWordsAreIllegal : Obligations.OnlyCounterWordsAreIllegal := by
  intro s id w rest hin
  refine ⟨fun hc hw => step_illegal (e := .noSuchCommand) hin ?_, fun hc hw => ?_, fun hw => ?_⟩
  · rw [decodeCommand_of_counter_word hw, hc]
    rfl
  · rw [decodeCommand_of_counter_word hw, hc]
    rfl
  · cases hdec : decodeCommand s.params.hasDiscardCounter w with
    | ok i => exact ⟨i, rfl⟩
    | error e =>
      obtain ⟨-, hge⟩ := decodeCommand_error hdec
      omega

end Sys2Proof
end

section
/-! PROOFS. Feed keys (30_encoding section 3): the table of R72 in terms of the key's fields, and the two directions of
the encodings. -/

namespace Sys2Proof

/-! ### The masks of the table, in terms of the fields (30_encoding R72) -/

section Masks

variable (sync : BitVec 1) (cnt : BitVec 3) (b : Byte)

/-- A key is masked field by field. -/
theorem makeKey_and (sync' : BitVec 1) (cnt' : BitVec 3) (b' : Byte) :
    makeKey sync cnt b &&& makeKey sync' cnt' b' = makeKey (sync &&& sync') (cnt &&& cnt') (b &&& b') :=
  BitVec.and_append.trans (congrArg (· ++ (b &&& b')) BitVec.and_append)

/-- Keys are equal when their fields are. -/
theorem makeKey_inj {sync sync' : BitVec 1} {cnt cnt' : BitVec 3} {b b' : Byte} :
    makeKey sync cnt b = makeKey sync' cnt' b' ↔ sync = sync' ∧ cnt = cnt' ∧ b = b' := by
  constructor
  · intro h
    exact ⟨by simpa using congrArg keySync h, by simpa using congrArg keyCount h, by simpa using congrArg keyByte h⟩
  · rintro ⟨rfl, rfl, rfl⟩
    rfl

theorem makeKey_and_last : makeKey sync cnt b &&& 0xF00#12 = makeKey sync cnt 0#8 := by
  have hmask : 0xF00#12 = makeKey (.allOnes 1) (.allOnes 3) 0#8 := rfl
  rw [hmask, makeKey_and, BitVec.and_allOnes, BitVec.and_allOnes, BitVec.and_zero]

theorem makeKey_and_sync : makeKey sync cnt b &&& 0x800#12 = makeKey sync 0#3 0#8 := by
  have hmask : 0x800#12 = makeKey (.allOnes 1) 0#3 0#8 := rfl
  rw [hmask, makeKey_and, BitVec.and_allOnes, BitVec.and_zero, BitVec.and_zero]

theorem makeKey_and_hdr : makeKey sync cnt b &&& 0x8FF#12 = makeKey sync 0#3 b := by
  have hmask : 0x8FF#12 = makeKey (.allOnes 1) 0#3 (.allOnes 8) := rfl
  rw [hmask, makeKey_and, BitVec.and_allOnes, BitVec.and_zero, BitVec.and_allOnes]

@[simp] theorem makeKey_matches_last : makeKey sync cnt b &&& 0xF00#12 = 0xF00#12 ↔ sync = 1#1 ∧ cnt = 7#3 := by
  rw [makeKey_and_last, show 0xF00#12 = makeKey 1#1 7#3 0#8 from rfl, makeKey_inj]
  simp

@[simp] theorem makeKey_matches_row : makeKey sync cnt b &&& 0x800#12 = 0x800#12 ↔ sync = 1#1 := by
  rw [makeKey_and_sync, show 0x800#12 = makeKey 1#1 0#3 0#8 from rfl, makeKey_inj]
  simp

@[simp] theorem makeKey_matches_hdr : makeKey sync cnt b &&& 0x8FF#12 = 0x0AA#12 ↔ sync = 0#1 ∧ b = 0xAA#8 := by
  rw [makeKey_and_hdr, show 0x0AA#12 = makeKey 0#1 0#3 0xAA#8 from rfl, makeKey_inj]
  simp

@[simp] theorem makeKey_matches_discard : makeKey sync cnt b &&& 0x800#12 = 0x000#12 ↔ sync = 0#1 := by
  rw [makeKey_and_sync, show 0x000#12 = makeKey 0#1 0#3 0#8 from rfl, makeKey_inj]
  simp

end Masks

/-! ### The behaviour a key selects -/

/-- A key with `key[11] = 1`: the last row byte with count 7, a row byte with any other. -/
theorem decodeKey_collecting (cnt : BitVec 3) (b : Byte) :
    decodeKey (makeKey 1#1 cnt b) = if cnt = 7#3 then .feedLast b else .feedRow cnt b := by
  by_cases h : cnt = 7#3
  · simp [decodeKey, selectCase, keyTable, KeyRow.hits, h]
  · simp [decodeKey, selectCase, keyTable, KeyRow.hits, h]

/-- A key with `key[11] = 0`: the header or a discarded byte, whatever its count bits (30_encoding R73). -/
theorem decodeKey_waiting (cnt : BitVec 3) (b : Byte) :
    decodeKey (makeKey 0#1 cnt b) = if b = 0xAA#8 then .feedHdr else .feedDiscard b := by
  by_cases h : b = 0xAA#8
  · simp [decodeKey, selectCase, keyTable, KeyRow.hits, h]
  · simp [decodeKey, selectCase, keyTable, KeyRow.hits, h]

/-! ### Decode and encode -/

/-- Decoding the words of a well-formed instruction gives it back on every machine, RDCNT aside: being well formed keeps
the key of FEED.ROW from count 7 and that of FEED.DISCARD from the header byte. -/
theorem decode_encode (counter : Bool) {i : Instr} (hwf : i.wellFormed = true) (hi : i ≠ .rdcnt) :
    decode counter (encode i) = .ok i := by
  cases i with
  | idle => exact decodeCommand_idle counter 0
  | feed b => exact decodeCommand_feed counter b
  | reset => exact decodeCommand_reset counter 0
  | rdcnt => exact absurd rfl hi
  | feedLast b => exact congrArg Except.ok ((decodeKey_collecting 7 b).trans (if_pos rfl))
  | feedRow k b =>
    have hk : k ≠ 7 := bne_iff_ne.1 hwf
    exact congrArg Except.ok ((decodeKey_collecting k b).trans (if_neg hk))
  | feedHdr => exact congrArg Except.ok ((decodeKey_waiting 0 0xAA).trans (if_pos rfl))
  | feedDiscard b =>
    have hb : b ≠ 0xAA := bne_iff_ne.1 hwf
    exact congrArg Except.ok ((decodeKey_waiting 0 b).trans (if_neg hb))
  | encode data => rfl

/-- Settles O5: RDCNT has its word with the counter, every other instruction has its own on both machines. -/
theorem decodeInvertsEncode : Obligations.DecodeInvertsEncode := by
  intro i hwf
  refine ⟨?_, decode_encode false hwf⟩
  by_cases hi : i = .rdcnt
  · exact hi ▸ decodeCommand_rdcnt true 0
  · exact decode_encode true hwf hi

/-- A command word that is a FEED, or carries no data, is the word of the command it spells. -/
theorem encode_of_decodeCommand {counter : Bool} {op : BitVec 2} {data : Byte} {i : Instr}
    (h : decodeCommand counter (makeCommand op data) = .ok i) (hdata : op = 0b01#2 ∨ data = 0) :
    encode i = .command (makeCommand op data) := by
  rcases operation_cases op with rfl | rfl | rfl | rfl
  · obtain rfl : data = 0 := by simpa using hdata
    obtain rfl : Instr.idle = i := by simpa using h
    rfl
  · obtain rfl : Instr.feed data = i := by simpa using h
    rfl
  · obtain rfl : data = 0 := by simpa using hdata
    obtain rfl : Instr.reset = i := by simpa using h
    rfl
  · obtain rfl : data = 0 := by simpa using hdata
    cases counter with
    | true =>
      obtain rfl : Instr.rdcnt = i := by simpa using h
      rfl
    | false => simp at h

/-- A feed key that can occur is the key of the behaviour it selects, and its operands are well formed. -/
theorem encode_decodeKey {sync : BitVec 1} {cnt : BitVec 3} (b : Byte) (h : sync = 1 ∨ cnt = 0) :
    encode (decodeKey (makeKey sync cnt b)) = .key (makeKey sync cnt b) ∧
      (decodeKey (makeKey sync cnt b)).wellFormed = true := by
  rcases BitVec.eq_zero_or_eq_one sync with rfl | rfl
  · obtain rfl : cnt = 0 := by simpa using h
    rw [decodeKey_waiting 0 b]
    split
    · next hb => exact ⟨by rw [hb]; rfl, rfl⟩
    · next hb => exact ⟨rfl, bne_iff_ne.2 hb⟩
  · rw [decodeKey_collecting cnt b]
    split
    · next hc => exact ⟨by rw [hc]; rfl, rfl⟩
    · next hc => exact ⟨rfl, bne_iff_ne.2 hc⟩

/-- Settles O6: every word and every key is put together from its fields. -/
theorem encodeInvertsDecode : Obligations.EncodeInvertsDecode := by
  refine ⟨fun counter w i h hdata => ?_, fun key h => ?_⟩
  · rw [← makeCommand_fields w] at h ⊢
    exact encode_of_decodeCommand h hdata
  · rw [← makeKey_fields key]
    exact encode_decodeKey (keyByte key) h

/-- Settles O7: each is a word written out. -/
theorem writtenOutWordsDecode : Obligations.WrittenOutWordsDecode := by
  unfold Obligations.WrittenOutWordsDecode
  decide

end Sys2Proof
end

section
/-! PROOFS. The feed key of a state and a byte (30_encoding R71, R72): what it says of the state, and the class and the
behaviour of every byte (R65). -/

namespace Sys2Proof.Machine

/-! ### The fields of a state's key -/

@[simp] theorem Mode.syncBit_eq_one {m : Mode} : m.syncBit = 1#1 ↔ m = .collecting := by
  cases m <;> decide

@[simp] theorem Mode.syncBit_eq_zero {m : Mode} : m.syncBit = 0#1 ↔ m = .waiting := by
  cases m <;> decide

/-- The count of a stable instance fits the three bits of the key. -/
theorem Decoder.Stable.cnt_le {d : Decoder} (h : d.Stable) : d.cnt.toNat ≤ 7 := by
  rcases h with ⟨-, hc, -⟩ | ⟨-, -, hc, -⟩
  · simp [hc]
  · exact hc

/-- The count bits of a stable instance's key are the whole count. -/
theorem Decoder.Stable.countLow_toNat {d : Decoder} (h : d.Stable) : d.countLow.toNat = d.cnt.toNat :=
  Decoder.countLow_toNat h.cnt_le

theorem Decoder.Stable.countLow_eq_seven {d : Decoder} (h : d.Stable) : d.countLow = 7#3 ↔ d.cnt.toNat = 7 := by
  rw [← BitVec.toNat_inj, h.countLow_toNat]
  rfl

theorem Decoder.feedKey_waiting {d : Decoder} (b : Byte) (hm : d.mode = .waiting) :
    d.feedKey b = makeKey 0#1 d.countLow b := by
  rw [Decoder.feedKey, hm]
  rfl

theorem Decoder.feedKey_collecting {d : Decoder} (b : Byte) (hm : d.mode = .collecting) :
    d.feedKey b = makeKey 1#1 d.countLow b := by
  rw [Decoder.feedKey, hm]
  rfl

/-! ### The table -/

/-- The first row of the table that a key matches gives its behaviour. The sync bit leaves two rows that can match, and
the other fields choose between them. -/
theorem decodeKey_first_match (key : FeedKey) :
    (key &&& 0xF00 = 0xF00 → decodeKey key = .feedLast (keyByte key)) ∧
    (key &&& 0xF00 ≠ 0xF00 → key &&& 0x800 = 0x800 → decodeKey key = .feedRow (keyCount key) (keyByte key)) ∧
    (key &&& 0x8FF = 0x0AA → decodeKey key = .feedHdr) ∧
    (key &&& 0x8FF ≠ 0x0AA → key &&& 0x800 = 0x000 → decodeKey key = .feedDiscard (keyByte key)) := by
  rw [← makeKey_fields key]
  generalize keySync key = sync, keyCount key = cnt, keyByte key = b
  rcases BitVec.eq_zero_or_eq_one sync with rfl | rfl
  · simp +contextual [decodeKey_waiting]
  · simp +contextual [decodeKey_collecting]

/-- What each match says of a stable state, in words. -/
theorem Decoder.Stable.feedKey_matches {d : Decoder} (b : Byte) (h : d.Stable) :
    (d.feedKey b &&& 0xF00 = 0xF00 ↔ d.mode = .collecting ∧ d.cnt.toNat = 7) ∧
    (d.feedKey b &&& 0x800 = 0x800 ↔ d.mode = .collecting) ∧
    (d.feedKey b &&& 0x8FF = 0x0AA ↔ d.mode = .waiting ∧ b = 0xAA) ∧
    (d.feedKey b &&& 0x800 = 0x000 ↔ d.mode = .waiting) := by
  simp [Decoder.feedKey, h.countLow_eq_seven]

/-- Settles O3: the table is total, and each match is a condition on the key's fields. -/
theorem feedKeyTable : Obligations.FeedKeyTable :=
  ⟨selectCase_isSome, decodeKey_first_match, fun cnt b => ⟨decodeKey_collecting cnt b, decodeKey_waiting cnt b⟩,
    fun _ b h => h.feedKey_matches b⟩

/-! ### The byte classes -/

theorem Decoder.byteClass_waiting {d : Decoder} (b : Byte) (hm : d.mode = .waiting) :
    d.byteClass b = if b = Config.headerByte then .header else .noise := by
  simp [Decoder.byteClass, hm]

theorem Decoder.byteClass_collecting {d : Decoder} (b : Byte) (hm : d.mode = .collecting) :
    d.byteClass b = if d.cnt = 7 then .lastRowByte else .rowByte := by
  simp [Decoder.byteClass, hm]

/-- Settles O4: the mode and the byte, or the mode and the count, choose the class and the behaviour alike. -/
theorem byteClassesSelectBehaviours : Obligations.ByteClassesSelectBehaviours := by
  intro d b h
  have hcount : (keyCount (d.feedKey b)).toNat = d.cnt.toNat := by
    rw [Decoder.feedKey, keyCount_makeKey, h.countLow_toNat]
  have hseven : d.cnt = 7 ↔ d.cnt.toNat = 7 := BitVec.toNat_inj.symm
  refine ⟨by simp [Decoder.feedKey], hcount, keyByte_makeKey _ _ b, fun hsync => ?_, fun hm hb => ?_, fun hm hb => ?_,
    fun hm hc => ?_, fun hm hc => ?_⟩
  · have hm : d.mode = .waiting := by simpa [Decoder.feedKey] using hsync
    exact BitVec.eq_of_toNat_eq (by simp [hcount, (h.isWaiting hm).2.1])
  · rw [Decoder.byteClass_waiting b hm, Decoder.feedKey_waiting b hm, decodeKey_waiting]
    exact ⟨if_pos hb, if_pos hb⟩
  · rw [Decoder.byteClass_waiting b hm, Decoder.feedKey_waiting b hm, decodeKey_waiting]
    exact ⟨if_neg hb, if_neg hb⟩
  · have hne : d.cnt.toNat ≠ 7 := by omega
    rw [Decoder.byteClass_collecting b hm, Decoder.feedKey_collecting b hm, decodeKey_collecting, keyCount_makeKey]
    exact ⟨if_neg (mt hseven.1 hne), if_neg (mt h.countLow_eq_seven.1 hne)⟩
  · rw [Decoder.byteClass_collecting b hm, Decoder.feedKey_collecting b hm, decodeKey_collecting]
    exact ⟨if_pos (hseven.2 hc), if_pos (h.countLow_eq_seven.2 hc)⟩

end Sys2Proof.Machine
end

section
/-! PROOFS. Where the four behaviours of a FEED have no step (30_encoding R72, log entry 8). -/

namespace Sys2Proof.Machine

section Refusals

variable {s : State} {d : Decoder} (h : s.decoder? s.active = some d)
include h

theorem execFeedHdr_refused (hm : d.mode = .collecting) : execFeedHdr s = .refused .keyNotSelected := by
  simp [execFeedHdr, onActive_eq h, hm]

theorem execFeedDiscard_refused {b : Byte} (hn : ¬ (d.mode = .waiting ∧ b ≠ Config.headerByte)) :
    execFeedDiscard b s = .refused .keyNotSelected := by
  rw [execFeedDiscard, onActive_eq h, if_neg hn]

theorem execFeedRow_refused {k : BitVec 3} {b : Byte}
    (hn : ¬ (d.mode = .collecting ∧ d.cnt.toNat = k.toNat ∧ k ≠ 7)) :
    execFeedRow k b s = .refused .keyNotSelected := by
  rw [execFeedRow, onActive_eq h, if_neg hn]

theorem execFeedLast_refused {b : Byte} (hn : ¬ (d.mode = .collecting ∧ d.cnt = 7)) :
    execFeedLast b s = .refused .keyNotSelected := by
  rw [execFeedLast, onActive_eq h, if_neg hn]

end Refusals

/-- Settles O23: each cause it names denies the condition of the behaviour. -/
theorem unselectedBehaviourIsRefused : Obligations.UnselectedBehaviourIsRefused := by
  intro s d b k hd
  refine ⟨execFeedHdr_refused hd, fun hcause => execFeedDiscard_refused hd ?_,
    fun hcause => execFeedRow_refused hd ?_, fun hcause => execFeedLast_refused hd ?_⟩
  · rintro ⟨hm, hb⟩
    exact hb (by simpa [hm] using hcause)
  · rintro ⟨hm, hc, hk⟩
    exact hk (by simpa [hm, hc] using hcause)
  · rintro ⟨hm, hc⟩
    simp [hm, hc] at hcause

end Sys2Proof.Machine
end

section
/-! PROOFS. No partial Bitmap is handed out (30_encoding R62): the record of a FEED that completes a frame. -/

namespace Sys2Proof.Machine

/-- A record that hands out whole Bitmaps only, and writes only rows of the Bitmap it hands out. -/
def StepRecord.Whole (r : StepRecord) : Prop :=
  (∀ B, r.result = .bitmap B → B.length = 8) ∧
    ∀ e ∈ r.events, ∃ B, r.result = .bitmap B ∧ B[e.rowIndex]? = some e.rowValue

/-- A record without a Bitmap and without events. -/
theorem StepRecord.Whole.of_no_bitmap {u : UnitId} {res : StepResult} {st : Status} (h : ∀ B, res ≠ .bitmap B) :
    StepRecord.Whole ⟨u, res, st, []⟩ :=
  ⟨fun B hB => absurd hB (h B), by simp⟩

theorem encodeRequest_ne_bitmap (data B : List Byte) : (encodeRequest data).1 ≠ .bitmap B := by
  unfold encodeRequest
  split <;> simp

/-- Every call of a delivery writes the Bitmap's row at the call's index. -/
theorem deliver_event_row {policy : SinkErrorPolicy} {B : List Byte} {sk : Sink} {e : WriteRow}
    (he : e ∈ (deliver policy B sk).events) : B[e.rowIndex]? = some e.rowValue := by
  obtain ⟨k, hk, rfl⟩ := List.getElem_of_mem he
  obtain ⟨-, hcalls⟩ := deliverFrom_events policy 0 B sk
  obtain ⟨v, hv, hve⟩ := Option.map_eq_some_iff.1 ((hcalls k hk).symm.trans (List.getElem?_eq_getElem hk))
  rw [← hve]
  simpa using hv

/-- The record of a delivery of eight rows. -/
theorem StepRecord.Whole.of_delivery {u : UnitId} {B : List Byte} {policy : SinkErrorPolicy} {sk : Sink}
    (hB : B.length = 8) :
    StepRecord.Whole ⟨u, .bitmap B, (deliver policy B sk).status, (deliver policy B sk).events⟩ := by
  refine ⟨fun B' hB' => ?_, fun e he => ⟨B, rfl, deliver_event_row he⟩⟩
  cases hB'
  exact hB

theorem FeedNext.whole {b : Byte} {s t : State} {d : Decoder} (h : FeedNext b s d t) :
    ∃ r : StepRecord, t.outputs = s.outputs ++ [r] ∧ r.Whole := by
  cases h with
  | hdr => exact ⟨_, rfl, .of_no_bitmap (by simp)⟩
  | discard => exact ⟨_, rfl, .of_no_bitmap (by simp)⟩
  | row => exact ⟨_, rfl, .of_no_bitmap (by simp)⟩
  | last B hm hc hB => exact ⟨_, rfl, .of_delivery (Decoder.readRows_length hB)⟩

/-- Settles O29: only FEED.LAST's record has a Bitmap, the eight slots it read. -/
theorem bitmapsAreWhole : Obligations.BitmapsAreWhole := by
  intro i s t h
  cases exec_next_cases h with
  | idle => exact ⟨_, rfl, StepRecord.Whole.of_no_bitmap (by simp)⟩
  | reset => exact ⟨_, rfl, StepRecord.Whole.of_no_bitmap (by simp)⟩
  | rdcnt => exact ⟨_, rfl, StepRecord.Whole.of_no_bitmap (by simp)⟩
  | encode data => exact ⟨_, rfl, StepRecord.Whole.of_no_bitmap (encodeRequest_ne_bitmap data)⟩
  | feed _ b d _ hi hd hn => exact hn.whole

end Sys2Proof.Machine
end

section
/-! PROOFS. The decoder's control commands (40_decoder R80, R81, R82, R96). -/

namespace Sys2Proof.Machine

/-- Settles O9: every meaning but those of RESET and ENCODE runs on the addressed instance. -/
theorem unconstructedInstanceIsRefused : Obligations.UnconstructedInstanceIsRefused := by
  intro i s hd hreset hencode
  cases i with
  | idle => exact onActive_none hd _
  | feed b => exact onActive_none hd _
  | reset => exact absurd rfl hreset
  | rdcnt => exact onActive_none hd _
  | feedLast b => exact onActive_none hd _
  | feedRow k b => exact onActive_none hd _
  | feedHdr => exact onActive_none hd _
  | feedDiscard b => exact onActive_none hd _
  | encode data => exact absurd rfl (hencode data)

/-- Settles O10: both RESETs set the instance to the same constructed one, since the first leaves the parameters. -/
theorem resetConstructs : Obligations.ResetConstructs := by
  intro s
  have hset := State.decoder?_setDecoder_self s s.active (Decoder.constructed s.params)
  refine ⟨rfl, (s.setDecoder s.active (Decoder.constructed s.params)).finishQuiet .nothing, _, rfl,
    s.sameElsewhere_setDecoder _, hset, rfl, rfl, rfl, ?_, ?_⟩
  · exact State.sameElsewhere_setDecoder ((s.setDecoder s.active _).finishQuiet .nothing) _
  · exact (State.decoder?_setDecoder_self _ _ _).trans hset.symm

/-- Settles O11: IDLE on a constructed instance only ends the step. -/
theorem idleChangesNothing : Obligations.IdleChangesNothing :=
  ⟨rfl, fun _ _ hd => onActive_eq hd _⟩

theorem execRdcnt_eq {s : State} {d : Decoder} {n : Nat} (h : s.decoder? s.active = some d)
    (hn : d.discards = some n) : execRdcnt s = .next (s.finishQuiet (.count n)) := by
  simp [execRdcnt, onActive_eq h, hn]

theorem execRdcnt_refused {s : State} {d : Decoder} (h : s.decoder? s.active = some d) (hn : d.discards = none) :
    execRdcnt s = .refused .noDiscardCounter := by
  simp [execRdcnt, onActive_eq h, hn]

/-- Settles O20: the words from `0x300` are RDCNT's, and the instance has a counter or has none. -/
theorem rdcntReadsCounter : Obligations.RdcntReadsCounter :=
  ⟨rfl, fun _ hw => ⟨decodeCommand_of_counter_word hw true, decodeCommand_of_counter_word hw false⟩,
    fun _ _ hd => ⟨fun _ hn => execRdcnt_eq hd hn, execRdcnt_refused hd⟩⟩

end Sys2Proof.Machine
end

section
/-! PROOFS. The dispatch of FEED (40_decoder R83), and the three behaviours that make no sink call (R84, R85, R86). -/

namespace Sys2Proof.Machine

/-! ### The behaviour a FEED runs -/

section Dispatch

variable {s : State} {d : Decoder} {b : Byte} (h : s.decoder? s.active = some d)
include h

theorem exec_feed_eq_feedHdr (hm : d.mode = .waiting) (hb : b = Config.headerByte) :
    exec (.feed b) s = exec .feedHdr s := by
  simp [exec, execFeed, onActive_eq h, hm, hb]

theorem exec_feed_eq_feedDiscard (hm : d.mode = .waiting) (hb : b ≠ Config.headerByte) :
    exec (.feed b) s = exec (.feedDiscard b) s := by
  simp only [exec, execFeed, onActive_eq h, hm, if_neg hb]

theorem exec_feed_eq_feedLast (hm : d.mode = .collecting) (hc : d.cnt = 7) :
    exec (.feed b) s = exec (.feedLast b) s := by
  simp [exec, execFeed, onActive_eq h, hm, hc]

theorem exec_feed_eq_feedRow (hm : d.mode = .collecting) (hc : d.cnt ≠ 7) :
    exec (.feed b) s = exec (.feedRow d.countLow b) s := by
  simp only [exec, execFeed, onActive_eq h, hm, if_neg hc]

/-- In a stable state a FEED runs the behaviour its feed key selects (30_encoding R72). -/
theorem exec_feed_eq_decodeKey (hs : d.Stable) : exec (.feed b) s = exec (decodeKey (d.feedKey b)) s := by
  cases hm : d.mode with
  | waiting =>
    rw [Decoder.feedKey_waiting b hm, decodeKey_waiting]
    split
    · exact exec_feed_eq_feedHdr h hm ‹_›
    · exact exec_feed_eq_feedDiscard h hm ‹_›
  | collecting =>
    have hseven : d.countLow = 7#3 ↔ d.cnt = 7#4 := hs.countLow_eq_seven.trans (BitVec.toNat_inj (y := 7#4))
    rw [Decoder.feedKey_collecting b hm, decodeKey_collecting]
    split
    · exact exec_feed_eq_feedLast h hm (hseven.1 ‹_›)
    · exact exec_feed_eq_feedRow h hm (mt hseven.2 ‹_›)

end Dispatch

/-- Settles O19: the dispatch by mode, byte and count is the feed key's, and every case of it completes. -/
theorem feedDispatches : Obligations.FeedDispatches := by
  refine ⟨fun counter b w hw => ?_, fun s d b hd hs => ⟨exec_feed_eq_feedHdr hd, exec_feed_eq_feedDiscard hd,
    fun hm hc => exec_feed_eq_feedLast hd hm (BitVec.eq_of_toNat_eq hc), fun k hm hc hk => ?_,
    exec_feed_eq_decodeKey hd hs, ?_⟩⟩
  · obtain ⟨-, hfeed, -⟩ := commandWordsByValue.1 counter w
    exact hfeed b hw
  · have hne : d.cnt ≠ 7 := fun h7 => by simp [h7] at hc
    obtain rfl : k = d.countLow := BitVec.eq_of_toNat_eq (hk.trans hs.countLow_toNat.symm)
    exact exec_feed_eq_feedRow hd hm hne
  · obtain ⟨t, ht⟩ := exec_feed_completes b hd hs
    exact ⟨t, ht, (everyInstructionIsFramed _ s t ht).1⟩

/-! ### While waiting -/

/-- Settles O12: the frame starts as `C(0; )`, in which the next header byte is appended as row 0. -/
theorem feedHdrStartsFrame : Obligations.FeedHdrStartsFrame := by
  refine ⟨fun key => ?_, fun s d hd hm => ?_⟩
  · obtain ⟨-, -, hhdr, -⟩ := decodeKey_first_match key
    exact hhdr
  have hset := State.decoder?_setDecoder_self s s.active d.startFrame
  refine ⟨_, execFeedHdr_eq hd hm, s.sameElsewhere_setDecoder _, hset, rfl, rfl, ?_⟩
  exact ⟨_, d.startFrame.append 0xAA, exec_feed_row hset rfl (Nat.zero_le _), State.decoder?_setDecoder_self _ _ _,
    Decoder.append_holds 0xAA d.startFrame_holds (Nat.zero_le _)⟩

/-- Settles O13: the instance it sets differs in the counter alone. -/
theorem feedDiscardDropsByte : Obligations.FeedDiscardDropsByte := by
  refine ⟨fun key => ?_, fun s d b hd hm hb => ?_⟩
  · obtain ⟨-, -, -, hdiscard⟩ := decodeKey_first_match key
    exact hdiscard
  exact ⟨_, execFeedDiscard_eq hd hm hb, s.sameElsewhere_setDecoder _, State.decoder?_setDecoder_self s s.active _,
    rfl, rfl⟩

/-! ### While collecting -/

/-- Settles O14: FEED.ROW appends the byte, whatever its value. -/
theorem feedRowStoresByte : Obligations.FeedRowStoresByte := by
  refine ⟨fun key => ?_, fun s d v k b hd hv hk hlen => ?_⟩
  · obtain ⟨-, hrow, -⟩ := decodeKey_first_match key
    exact hrow
  have hcnt : d.cnt.toNat = k.toNat := hv.2.1.trans hk.symm
  have hne : k ≠ 7 := fun h7 => by simp [h7] at hk; omega
  exact ⟨_, d.append b, execFeedRow_eq hd hv.1 hcnt hne, s.sameElsewhere_setDecoder _,
    State.decoder?_setDecoder_self s s.active _, Decoder.append_holds b hv hlen, rfl, rfl, rfl⟩

/-- The count after a row byte that does not complete the frame. -/
theorem Decoder.append_cnt_toNat {d : Decoder} (b : Byte) (hc : d.cnt.toNat ≤ 6) :
    (d.append b).cnt.toNat = d.cnt.toNat + 1 := by
  rw [Decoder.append_cnt, BitVec.toNat_add_of_lt (by simp; omega)]
  rfl

/-- Settles O32: below count 7 both bytes are appended, and at count 7 both end the frame. -/
theorem rowValuesNeverSteerFraming : Obligations.RowValuesNeverSteerFraming := by
  intro s d b b' hd hs hm
  by_cases hc : d.cnt.toNat ≤ 6
  · exact ⟨_, _, d.append b, d.append b', exec_feed_row hd hm hc, exec_feed_row hd hm hc,
      State.decoder?_setDecoder_self s s.active _, State.decoder?_setDecoder_self s s.active _, rfl, rfl,
      fun _ => ⟨hm, Decoder.append_cnt_toNat b hc⟩⟩
  · have hrows := hs.holds hm
    have hlen : d.rows.length = 7 := by
      have hcnt : d.cnt.toNat = d.rows.length := hrows.2.1
      have hle := hs.cnt_le
      omega
    exact ⟨_, _, d.endFrame, d.endFrame, exec_feed_last hd hrows hlen, exec_feed_last hd hrows hlen,
      State.decoder?_setDecoder_self s s.active _, State.decoder?_setDecoder_self s s.active _, rfl, rfl,
      fun hle => absurd hle hc⟩

end Sys2Proof.Machine
end

section
/-! PROOFS. The delivery of a Bitmap to the display sink (40_decoder R88 to R90): how far it goes, and its status. -/

namespace Sys2Proof.Machine

/-! ### The calls of a delivery -/

@[simp] theorem rowCalls_length (B : List Byte) (sk : Sink) : (rowCalls B sk).length = B.length :=
  List.length_mapIdx

/-- A delivery's events are the first of the Bitmap's row calls, as many as it makes. -/
theorem deliver_events_eq_take (p : SinkErrorPolicy) (B : List Byte) (sk : Sink) :
    (deliver p B sk).events = (rowCalls B sk).take (deliver p B sk).events.length := by
  obtain ⟨-, hcalls⟩ := deliverFrom_events p 0 B sk
  refine List.ext_getElem? fun k => ?_
  by_cases hk : k < (deliver p B sk).events.length
  · rw [List.getElem?_take_of_lt hk]
    simpa [rowCalls, deliver] using hcalls k hk
  · rw [List.getElem?_eq_none (by omega), List.getElem?_eq_none (by simp; omega)]

/-- A delivery with every call accepted is whole, and its status is OK. -/
theorem deliver_of_accepted {p : SinkErrorPolicy} {B : List Byte} {sk : Sink}
    (h : ∀ k, k < B.length → sk.answer k = .accept) :
    (deliver p B sk).status = .ok ∧ (deliver p B sk).events.length = B.length := by
  rcases deliverFrom_status p 0 B sk with ⟨hok, hlen, -⟩ | ⟨k, hk, -, hreject, -⟩
  · exact ⟨hok, hlen⟩
  · simp [h k hk] at hreject

/-- The first rejected row names a delivery's status, and the policy says how far the delivery goes. -/
theorem deliver_of_first_rejection {p : SinkErrorPolicy} {B : List Byte} {sk : Sink} {r : Nat} (hr : r < B.length)
    (haccept : ∀ j, j < r → sk.answer j = .accept) (hreject : sk.answer r = .reject) :
    (deliver p B sk).status = .sinkRejected r ∧
      (p = .abortRemaining → (deliver p B sk).events.length = r + 1) ∧
      (p = .continueRows → (deliver p B sk).events.length = B.length) := by
  rcases deliverFrom_status p 0 B sk with ⟨-, -, hall⟩ | ⟨k, -, hstatus, hk, hbefore, hlen⟩
  · simp [hall r hr] at hreject
  · obtain rfl : k = r := by
      rcases lt_trichotomy k r with hlt | heq | hgt
      · simp [haccept k hlt] at hk
      · exact heq
      · simp [hbefore r hgt] at hreject
    refine ⟨hstatus.trans (congrArg _ k.zero_add), ?_, ?_⟩
    · rintro rfl
      exact hlen
    · rintro rfl
      exact hlen

/-- The row calls of a sink that accepts them all. -/
theorem rowCalls_of_accepted {B : List Byte} {sk : Sink} (h : ∀ k, k < B.length → sk.answer k = .accept) :
    rowCalls B sk = B.mapIdx fun r v => ⟨0, r, v, .accept⟩ :=
  List.mapIdx_eq_mapIdx_iff.2 fun k hk => by rw [h k hk]

/-! ### FEED.LAST from `C(7; v)` -/

/-- FEED.LAST completes the frame and delivers its Bitmap (40_decoder R87). -/
theorem exec_feedLast_eq {s : State} {d : Decoder} {v : List Byte} (b : Byte) (h : s.decoder? s.active = some d)
    (hv : d.Holds v) (hl : v.length = 7) :
    exec (.feedLast b) s = .next (finishDelivery (v ++ [b]) (s.setDecoder s.active d.endFrame)) :=
  execFeedLast_eq h hv.1 (BitVec.eq_of_toNat_eq (hv.2.1.trans hl)) (Decoder.append_readBitmap b hv hl)

/-- What FEED.LAST shows, by the status of the delivery and the number of its calls. -/
theorem exec_feedLast_delivers {s : State} {d : Decoder} {v : List Byte} {b : Byte} {status : Status} {n : Nat}
    (h : s.decoder? s.active = some d) (hv : d.Holds v) (hl : v.length = 7)
    (hdl : (deliver s.params.sinkErrorPolicy (v ++ [b]) s.sink).status = status ∧
      (deliver s.params.sinkErrorPolicy (v ++ [b]) s.sink).events.length = n) :
    ∃ t, exec (.feedLast b) s = .next t ∧
      t.outputs = s.outputs ++ [⟨.decoder s.active, .bitmap (v ++ [b]), status,
        (rowCalls (v ++ [b]) s.sink).take n⟩] ∧
      t.sink = ⟨s.sink.answers.drop n, s.sink.calls + n⟩ := by
  obtain ⟨rfl, rfl⟩ := hdl
  refine ⟨_, exec_feedLast_eq b h hv hl, ?_, deliverFrom_sink _ 0 _ _⟩
  rw [← deliver_events_eq_take]
  rfl

/-- Settles O16: the delivery is whole, so its events are all the row calls. -/
theorem deliveryWritesEightRows : Obligations.DeliveryWritesEightRows := by
  intro s d v b hd hv hl hanswer
  have hB : (v ++ [b]).length = 8 := by simp [hl]
  have haccept : ∀ k, k < (v ++ [b]).length → s.sink.answer k = .accept := fun k hk => hanswer k (by omega)
  obtain ⟨t, ht, hout, hsink⟩ := exec_feedLast_delivers hd hv hl (deliver_of_accepted haccept)
  rw [List.take_of_length_le (by simp), rowCalls_of_accepted haccept] at hout
  exact ⟨t, ht, hout, hB ▸ hsink⟩

/-- Settles O17: under ABORT_REMAINING the delivery makes `r + 1` calls. -/
theorem abortStopsAtFirstRejection : Obligations.AbortStopsAtFirstRejection := by
  intro s d v b r hp hd hv hl hr haccept hreject
  have hrow : r < (v ++ [b]).length := by simp; omega
  obtain ⟨hstatus, habort, -⟩ := deliver_of_first_rejection hrow haccept hreject
  exact exec_feedLast_delivers hd hv hl ⟨hstatus, habort hp⟩

/-- Settles O18: under CONTINUE the delivery makes all eight calls. -/
theorem continueIssuesEveryCall : Obligations.ContinueIssuesEveryCall := by
  intro s d v b r hp hd hv hl hr haccept hreject
  have hB : (v ++ [b]).length = 8 := by simp [hl]
  have hrow : r < (v ++ [b]).length := by omega
  obtain ⟨hstatus, -, hcontinue⟩ := deliver_of_first_rejection hrow haccept hreject
  obtain ⟨t, ht, hout, hsink⟩ := exec_feedLast_delivers hd hv hl ⟨hstatus, hcontinue hp⟩
  rw [List.take_of_length_le (by simp)] at hout
  exact ⟨t, ht, hout, hB ▸ hsink⟩

end Sys2Proof.Machine
end

section
/-! PROOFS. Which step calls the display sink (40_decoder R91, R93), and which writes the discard counter (R95). -/

namespace Sys2Proof.Machine

/-! ### The instruction behind a behaviour -/

section Behind

variable {i : Instr} {b : Byte} {s t : State} {d : Decoder} (hi : FeedInstr b i) (hd : s.decoder? s.active = some d)
  (h : exec i s = .next t)
include hi hd h

/-- An instruction of the FEED family that runs at count 7 is FEED.LAST or the FEED that runs it. -/
theorem FeedInstr.eq_of_completion (hm : d.mode = .collecting) (hc : d.cnt = 7) :
    i = .feedLast b ∨ i = .feed b := by
  cases hi with
  | feed => exact .inr rfl
  | hdr => cases (execFeedHdr_refused hd hm).symm.trans h
  | discard => cases (execFeedDiscard_refused hd (by simp [hm])).symm.trans h
  | row k =>
    have hn : ¬ (d.mode = .collecting ∧ d.cnt.toNat = k.toNat ∧ k ≠ 7) := fun ⟨_, hk, hne⟩ =>
      hne (BitVec.eq_of_toNat_eq (by simp [← hk, hc]))
    cases (execFeedRow_refused hd hn).symm.trans h
  | last => exact .inl rfl

/-- An instruction of the FEED family that runs on a byte of noise while waiting is FEED.DISCARD or the FEED that runs
it. -/
theorem FeedInstr.eq_of_noise (hm : d.mode = .waiting) (hb : b ≠ Config.headerByte) :
    i = .feedDiscard b ∨ i = .feed b := by
  cases hi with
  | feed => exact .inr rfl
  | hdr hb' => exact absurd hb' hb
  | discard => exact .inl rfl
  | row k => cases (execFeedRow_refused hd (by simp [hm])).symm.trans h
  | last => cases (execFeedLast_refused hd (by simp [hm])).symm.trans h

end Behind

/-! ### The sink -/

/-- What the step's record `r` says of the sink's calls: there are none, or they are the delivery of a Bitmap by
FEED.LAST, or by the FEED that runs it, at count 7. -/
inductive SinkCalls (i : Instr) (s t : State) (r : StepRecord) : Prop
  | quiet (hevents : r.events = []) (hsink : t.sink = s.sink)
  | delivery (b : Byte) (d : Decoder) (B : List Byte) (hi : i = .feedLast b ∨ i = .feed b)
      (hd : s.decoder? s.active = some d) (hm : d.mode = .collecting) (hc : d.cnt = 7) (hB : B.length = 8)
      (hevents : r.events = (deliver s.params.sinkErrorPolicy B s.sink).events)
      (hsink : t.sink = (deliver s.params.sinkErrorPolicy B s.sink).sink)

theorem exec_sinkCalls {i : Instr} {s t : State} (h : exec i s = .next t) :
    ∃ r : StepRecord, t.outputs = s.outputs ++ [r] ∧ SinkCalls i s t r := by
  cases exec_next_cases h with
  | idle => exact ⟨_, rfl, .quiet rfl rfl⟩
  | reset => exact ⟨_, rfl, .quiet rfl rfl⟩
  | rdcnt => exact ⟨_, rfl, .quiet rfl rfl⟩
  | encode => exact ⟨_, rfl, .quiet rfl rfl⟩
  | feed _ b d _ hi hd hn =>
    cases hn with
    | hdr => exact ⟨_, rfl, .quiet rfl rfl⟩
    | discard => exact ⟨_, rfl, .quiet rfl rfl⟩
    | row => exact ⟨_, rfl, .quiet rfl rfl⟩
    | last B hm hc hB =>
      exact ⟨_, rfl, .delivery b d B (hi.eq_of_completion hd h hm hc) hd hm hc (Decoder.readRows_length hB) rfl rfl⟩

/-- Only FEED.LAST, and a FEED that does the same, has events. -/
theorem exec_events_ne_nil {i : Instr} {s t : State} {r : StepRecord} (h : exec i s = .next t)
    (hout : t.outputs = s.outputs ++ [r]) (hr : r.events ≠ []) :
    ∃ b, i = .feedLast b ∨ (i = .feed b ∧ exec (.feed b) s = exec (.feedLast b) s) := by
  obtain ⟨r', hout', hcalls⟩ := exec_sinkCalls h
  obtain rfl : r' = r := by simpa [hout'] using hout
  cases hcalls with
  | quiet hevents => exact absurd hevents hr
  | delivery b d B hi hd hm hc => exact ⟨b, hi.imp_right fun hfeed => ⟨hfeed, exec_feed_eq_feedLast hd hm hc⟩⟩

/-- The status of a delivery of eight rows: OK, or the number of one of them. -/
theorem deliver_status_cases {B : List Byte} (hB : B.length = 8) (p : SinkErrorPolicy) (sk : Sink) :
    (deliver p B sk).status = .ok ∨ ∃ r, r ≤ 7 ∧ (deliver p B sk).status = .sinkRejected r := by
  rcases deliverFrom_status p 0 B sk with ⟨hok, -⟩ | ⟨k, hk, hstatus, -⟩
  · exact .inl hok
  · exact .inr ⟨k, by omega, hstatus.trans (congrArg _ k.zero_add)⟩

/-- Settles O15: FEED.LAST sets the instance before it delivers, so the sink's answers leave it alone. -/
theorem feedLastCompletesBitmap : Obligations.FeedLastCompletesBitmap := by
  refine ⟨fun key => ?_, fun s d v b hd hv hl => ?_, fun i s t r => exec_events_ne_nil⟩
  · obtain ⟨hlast, -⟩ := decodeKey_first_match key
    exact hlast
  exact ⟨_, _, exec_feedLast_eq b hd hv hl, s.sameElsewhere_setDecoder _, State.decoder?_setDecoder_self s s.active _,
    rfl, rfl, rfl, deliver_status_cases (by simp [hl]) _ _⟩

/-- The event at position `k` of a delivery is the call of row `k` to device 0. -/
theorem deliver_event_index {p : SinkErrorPolicy} {B : List Byte} {sk : Sink} {k : Nat} {e : WriteRow}
    (he : (deliver p B sk).events[k]? = some e) : e.deviceIndex = 0 ∧ e.rowIndex = k := by
  obtain ⟨hk, -⟩ := List.getElem?_eq_some_iff.1 he
  obtain ⟨-, hcalls⟩ := deliverFrom_events p 0 B sk
  obtain ⟨v, -, rfl⟩ := Option.map_eq_some_iff.1 ((hcalls k hk).symm.trans he)
  exact ⟨rfl, k.zero_add⟩

/-- Settles O28: a step makes no call, or those of a delivery of eight rows. -/
theorem onlyCompletionCallsTheSink : Obligations.OnlyCompletionCallsTheSink := by
  intro i s t h
  obtain ⟨r, hout, hcalls⟩ := exec_sinkCalls h
  refine ⟨r, hout, ?_⟩
  cases hcalls with
  | quiet hevents hsink => simp [hevents, hsink]
  | delivery b d B hi hd hm hc hB hevents hsink =>
    rw [hevents, hsink]
    exact ⟨(deliverFrom_events _ 0 B s.sink).1.trans hB.le, fun k e => deliver_event_index, deliverFrom_sink _ 0 B _,
      fun _ => ⟨⟨b, hi⟩, d, hd, hm, by simp [hc]⟩⟩

/-! ### The discard counter -/

theorem State.eq_of_decoder?_setDecoder {s : State} {id : Nat} {d e : Decoder}
    (h : (s.setDecoder id e).decoder? id = some d) : d = e :=
  Option.some.inj (h.symm.trans (s.decoder?_setDecoder_self id e))

/-- A FEED behaviour counts a byte of noise consumed while waiting, and leaves the counter otherwise. -/
theorem FeedNext.discards_cases {b : Byte} {s t : State} {d d' : Decoder} (h : FeedNext b s d t)
    (hd' : t.decoder? s.active = some d') :
    ((d.mode = .waiting ∧ b ≠ Config.headerByte) ∧
      d'.discards = d.discards.map (bumpDiscards s.params.discardCounterWidth)) ∨
    (¬ (d.mode = .waiting ∧ b ≠ Config.headerByte) ∧ d'.discards = d.discards) := by
  cases h with
  | hdr hm hb => obtain rfl := State.eq_of_decoder?_setDecoder hd'; exact .inr ⟨by simp [hb], rfl⟩
  | discard hm hb => obtain rfl := State.eq_of_decoder?_setDecoder hd'; exact .inl ⟨⟨hm, hb⟩, rfl⟩
  | row hm => obtain rfl := State.eq_of_decoder?_setDecoder hd'; exact .inr ⟨by simp [hm], rfl⟩
  | last B hm => obtain rfl := State.eq_of_decoder?_setDecoder hd'; exact .inr ⟨by simp [hm], rfl⟩

/-- A FEED or a FEED.DISCARD runs the FEED family on its own byte. -/
theorem FeedInstr.byte_eq {b b' : Byte} {i : Instr} (hi : FeedInstr b i) (h : i = .feedDiscard b' ∨ i = .feed b') :
    b' = b := by
  rcases h with rfl | rfl
  · cases hi; rfl
  · cases hi; rfl

/-- Settles O27: of the FEED family only a byte of noise consumed while waiting reaches the counter. -/
theorem counterIsWrittenOnlyByDiscardAndReset : Obligations.CounterIsWrittenOnlyByDiscardAndReset := by
  intro i s t d d' h hd hd'
  have hsame : s.decoder? s.active = some d' → d'.discards = d.discards := fun hs => by
    rw [Option.some.inj (hs.symm.trans hd)]
  cases exec_next_cases h with
  | idle => exact .inr (.inr ⟨by simp, by simp, hsame hd'⟩)
  | reset =>
    obtain rfl := State.eq_of_decoder?_setDecoder hd'
    exact .inr (.inl ⟨rfl, rfl⟩)
  | rdcnt => exact .inr (.inr ⟨by simp, by simp, hsame hd'⟩)
  | encode => exact .inr (.inr ⟨by simp, by simp, hsame hd'⟩)
  | feed _ b e _ hi he hn =>
    obtain rfl : e = d := Option.some.inj (he.symm.trans hd)
    rcases hn.discards_cases hd' with ⟨⟨hm, hb⟩, hcount⟩ | ⟨hother, hkeep⟩
    · exact .inl ⟨⟨b, hi.eq_of_noise hd h hm hb, hb, hm⟩, hcount⟩
    · refine .inr (.inr ⟨?_, by cases hi <;> simp, hkeep⟩)
      rintro ⟨b', hb', hne, hm⟩
      exact hother ⟨hm, hi.byte_eq hb' ▸ hne⟩

end Sys2Proof.Machine
end

section
/-! PROOFS. The encoder: the record ENCODE adds, and its two cases by the list's length (41_encoder R110 to R114). -/

namespace Sys2Proof.Machine

/-- ENCODE adds the record `encodeRequest` gives for its data, and nothing else happens. -/
theorem exec_encode (data : List Byte) (s : State) :
    exec (.encode data) s = .next { s with
      outputs := s.outputs ++ [⟨.encoder, (encodeRequest data).1, (encodeRequest data).2, []⟩] } := rfl

theorem encodeRequest_of_length_eq {data : List Byte} (h : data.length = 8) :
    encodeRequest data = (.frame (0xAA :: data), .ok) := if_pos h

theorem encodeRequest_of_length_ne {data : List Byte} (h : data.length ≠ 8) :
    encodeRequest data = (.nothing, .invalidBitmapLength data.length) := if_neg h

/-- Settles O21: the one record of ENCODE, in the two cases of the length. -/
theorem encodeResult : Obligations.EncodeResult := by
  intro s data
  constructor
  · intro h
    rw [exec_encode, encodeRequest_of_length_eq h]
  · intro h
    rw [exec_encode, encodeRequest_of_length_ne h]

/-- Settles O22: the record is a function of the data, the same in every state. -/
theorem encodeIsPure : Obligations.EncodeIsPure := fun data =>
  ⟨(encodeRequest data).1, (encodeRequest data).2, exec_encode data⟩

end Sys2Proof.Machine
end

section
/-! PROOFS. The stream function `Decode` (42_link R121), by a stream's parts: noise, whole frames, a frame begun. -/

namespace Sys2Proof.Machine

/-- Induction over a stream as `Decode` reads it: a byte of noise, the whole frame after a header, or the frame a header
begins and the stream does not end. -/
theorem stream_induction {motive : List Byte → Prop} (nil : motive [])
    (noise : ∀ b s, b ≠ Config.headerByte → motive s → motive (b :: s))
    (begun : ∀ v : List Byte, v.length < 8 → motive (Config.headerByte :: v))
    (frame : ∀ B s : List Byte, B.length = 8 → motive s → motive (frameOf B ++ s)) (s : List Byte) : motive s := by
  match s with
  | [] => exact nil
  | b :: s =>
    by_cases hb : b = Config.headerByte
    · subst hb
      by_cases hlt : s.length < 8
      · exact begun s hlt
      · have hrest := stream_induction nil noise begun frame (s.drop 8)
        have hsplit : frameOf (s.take 8) ++ s.drop 8 = Config.headerByte :: s := by simp [frameOf]
        exact hsplit ▸ frame (s.take 8) (s.drop 8) (by simp; omega) hrest
    · exact noise b s hb (stream_induction nil noise begun frame s)
termination_by s.length

/-! ### The turns of the loop -/

theorem decodeStreamLoop_nil (n : Nat) : decodeStreamLoop n [] = (.waiting, []) := by
  cases n <;> rfl

theorem decodeStreamLoop_noise {b : Byte} (n : Nat) (s : List Byte) (hb : b ≠ Config.headerByte) :
    decodeStreamLoop n (b :: s) = decodeStreamLoop n s := by
  cases n with
  | zero => rfl
  | succ n => rw [decodeStreamLoop, decodeStreamLoop, List.dropWhile_cons_of_pos (by simpa using hb)]

theorem decodeStreamLoop_begun {v : List Byte} (n : Nat) (hv : v.length < 8) :
    decodeStreamLoop (n + 1) (Config.headerByte :: v) = (.collecting v, []) := by
  simp [decodeStreamLoop, hv]

theorem decodeStreamLoop_frame {B : List Byte} (n : Nat) (s : List Byte) (hB : B.length = 8) :
    decodeStreamLoop (n + 1) (frameOf B ++ s) = ((decodeStreamLoop n s).1, B :: (decodeStreamLoop n s).2) := by
  simp [decodeStreamLoop, frameOf, ← hB]

/-- One turn a byte is enough: more change nothing. -/
theorem decodeStreamLoop_eq {s : List Byte} {n : Nat} (hn : s.length ≤ n) : decodeStreamLoop n s = decodeStream s := by
  suffices h : ∀ m, s.length ≤ m → decodeStreamLoop n s = decodeStreamLoop m s from h _ le_rfl
  induction s using stream_induction generalizing n with
  | nil => simp [decodeStreamLoop_nil]
  | noise b s hb ih =>
    intro m hm
    rw [decodeStreamLoop_noise n s hb, decodeStreamLoop_noise m s hb]
    exact ih (Nat.le_of_succ_le hn) m (Nat.le_of_succ_le hm)
  | begun v hv =>
    intro m hm
    obtain ⟨n, rfl⟩ := Nat.exists_eq_add_of_le' (show 1 ≤ n by simp at hn; omega)
    obtain ⟨m, rfl⟩ := Nat.exists_eq_add_of_le' (show 1 ≤ m by simp at hm; omega)
    rw [decodeStreamLoop_begun n hv, decodeStreamLoop_begun m hv]
  | frame B s hB ih =>
    intro m hm
    simp only [frameOf, List.cons_append, List.length_cons, List.length_append] at hn hm
    obtain ⟨n, rfl⟩ := Nat.exists_eq_add_of_le' (show 1 ≤ n by omega)
    obtain ⟨m, rfl⟩ := Nat.exists_eq_add_of_le' (show 1 ≤ m by omega)
    rw [decodeStreamLoop_frame n s hB, decodeStreamLoop_frame m s hB, ih (by omega) m (by omega)]

/-! ### The stream function -/

@[simp] theorem decodeStream_nil : decodeStream [] = (.waiting, []) := rfl

theorem decodeStream_noiseByte {b : Byte} (s : List Byte) (hb : b ≠ Config.headerByte) :
    decodeStream (b :: s) = decodeStream s := by
  rw [← decodeStreamLoop_eq (n := s.length + 1) (Nat.le_succ _), ← decodeStreamLoop_noise _ s hb]
  rfl

theorem decodeStream_noise {noise : List Byte} (s : List Byte) (hn : Config.headerByte ∉ noise) :
    decodeStream (noise ++ s) = decodeStream s := by
  induction noise with
  | nil => rfl
  | cons b noise ih =>
    rw [List.mem_cons, not_or] at hn
    exact (decodeStream_noiseByte _ (Ne.symm hn.1)).trans (ih hn.2)

theorem decodeStream_of_noise {noise : List Byte} (hn : Config.headerByte ∉ noise) :
    decodeStream noise = (.waiting, []) := by
  simpa using decodeStream_noise [] hn

theorem decodeStream_begun {v : List Byte} (hv : v.length < 8) :
    decodeStream (Config.headerByte :: v) = (.collecting v, []) :=
  decodeStreamLoop_begun v.length hv

theorem decodeStream_frame {B : List Byte} (s : List Byte) (hB : B.length = 8) :
    decodeStream (frameOf B ++ s) = ((decodeStream s).1, B :: (decodeStream s).2) := by
  have hturns : (frameOf B ++ s).length = (8 + s.length) + 1 := by simp [frameOf, hB]
  rw [decodeStream, hturns, decodeStreamLoop_frame _ s hB, decodeStreamLoop_eq (Nat.le_add_left _ _)]

/-- Frames back to back. -/
theorem decodeStream_frames {frames : List (List Byte)} (h : ∀ B ∈ frames, B.length = 8) :
    decodeStream (frames.flatMap frameOf) = (.waiting, frames) := by
  induction frames with
  | nil => rfl
  | cons B frames ih =>
    rw [List.forall_mem_cons] at h
    rw [List.flatMap_cons, decodeStream_frame _ h.1, ih h.2]

end Sys2Proof.Machine
end

section
/-! PROOFS. The link laws (42_link R121, R124 to R130, R133): a stable instance decodes what is fed to it as `Decode`
decodes a stream, the frame in progress put in front. -/

namespace Sys2Proof.Machine

/-! ### What records deliver -/

section Deliveries

variable {s t : State} {id n : Nat}

theorem deliveries_of_quiet (hout : t.outputs = s.outputs ++ List.replicate n (quietRecord id)) :
    t.deliveries id = s.deliveries id := by
  rw [deliveries_append id hout, filterMap_quiet, List.append_nil]

theorem deliveries_of_bitmap {B : List Byte} {status : Status} {events : List WriteRow}
    (hout : t.outputs = s.outputs ++ List.replicate n (quietRecord id) ++ [⟨.decoder id, .bitmap B, status, events⟩]) :
    t.deliveries id = s.deliveries id ++ [B] := by
  rw [deliveries_append id (hout.trans (List.append_assoc _ _ _)), List.filterMap_append, filterMap_quiet]
  simp

end Deliveries

/-! ### Feeding a stream -/

/-- The bytes fed to instance `id` leave it stable, in the configuration `x`, and it delivers `ds`. -/
def State.FeedsTo (s : State) (id : Nat) (bytes : List Byte) (x : LinkState) (ds : List (List Byte)) : Prop :=
  ∃ t e, feedBytes id bytes s = .next t ∧ t.decoder? id = some e ∧ e.Stable ∧ e.view = x ∧
    t.deliveries id = s.deliveries id ++ ds

section FeedsTo

variable {s u : State} {id : Nat} {bytes rest : List Byte} {x : LinkState} {ds ds' : List (List Byte)}

theorem State.FeedsTo.nil {d : Decoder} (h : s.decoder? id = some d) (hd : d.Stable) (hx : d.view = x) :
    s.FeedsTo id [] x [] :=
  ⟨_, d, feedBytes_nil id s, h, hd, hx, (List.append_nil _).symm⟩

/-- Some bytes fed already: the rest goes on from where they led. -/
theorem State.FeedsTo.of_rest (h : u.FeedsTo id rest x ds') (hfed : feedBytes id bytes s = feedBytes id rest u)
    (hds : u.deliveries id = s.deliveries id ++ ds) : s.FeedsTo id bytes x (ds ++ ds') := by
  obtain ⟨t, e, hrun, he, hstable, hview, hdeliveries⟩ := h
  exact ⟨t, e, hfed.trans hrun, he, hstable, hview, by rw [hdeliveries, hds, List.append_assoc]⟩

theorem State.FeedsTo.of_quiet (h : u.FeedsTo id rest x ds) (hfed : feedBytes id bytes s = feedBytes id rest u)
    (hds : u.deliveries id = s.deliveries id) : s.FeedsTo id bytes x ds :=
  h.of_rest hfed (hds.trans (List.append_nil _).symm)

theorem State.FeedsTo.isWaiting (h : s.FeedsTo id bytes .waiting ds) :
    ∃ t e, feedBytes id bytes s = .next t ∧ t.decoder? id = some e ∧ e.IsWaiting ∧
      t.deliveries id = s.deliveries id ++ ds := by
  obtain ⟨t, e, hrun, he, hstable, hview, hdeliveries⟩ := h
  refine ⟨t, e, hrun, he, hstable.shape.resolve_right fun hv => ?_, hdeliveries⟩
  simp [hv.view_eq] at hview

theorem State.FeedsTo.holds {v : List Byte} (h : s.FeedsTo id bytes (.collecting v) []) :
    ∃ t e, feedBytes id bytes s = .next t ∧ t.decoder? id = some e ∧ e.Holds v ∧
      t.deliveries id = s.deliveries id := by
  obtain ⟨t, e, hrun, he, hstable, hview, hdeliveries⟩ := h
  rcases hstable.shape with hw | hv
  · simp [hw.view_eq] at hview
  · obtain rfl : e.rows = v := by simpa [hv.view_eq] using hview
    exact ⟨t, e, hrun, he, hv, by simpa using hdeliveries⟩

end FeedsTo

/-- Row bytes that do not complete the frame. -/
theorem feedsTo_rows {s : State} {id : Nat} {d : Decoder} {v bytes : List Byte} (h : s.decoder? id = some d)
    (hv : d.Holds v) (hl : v.length + bytes.length ≤ 7) : s.FeedsTo id bytes (.collecting (v ++ bytes)) [] := by
  obtain ⟨t, e, hfed, he, hrows, -, hout, -⟩ := feedBytes_rows [] h hv hl
  rw [List.append_nil] at hfed
  exact (State.FeedsTo.nil he hrows.stable hrows.view_eq).of_quiet hfed (deliveries_of_quiet hout)

/-- Settles O38, by induction over the stream as `Decode` reads it. -/
theorem decoderComputesStreamFunction : Obligations.DecoderComputesStreamFunction := by
  intro s id d bytes
  change s.decoder? id = some d → d.IsWaiting → s.FeedsTo id bytes (decodeStream bytes).1 (decodeStream bytes).2
  induction bytes using stream_induction generalizing s d with
  | nil => exact fun h hw => .nil h (.inl hw) hw.view_eq
  | noise b bytes hb ih =>
    intro h hw
    obtain ⟨t, hfed, he, hout, -⟩ := feedBytes_noiseByte bytes h hw.1 hb
    have hwaiting : (d.countDiscard s.params).IsWaiting := hw
    rw [decodeStream_noiseByte bytes hb]
    exact (ih t _ he hwaiting).of_quiet hfed (deliveries_of_quiet (n := 1) hout)
  | begun v hv =>
    intro h hw
    obtain ⟨t, hfed, he, hout, -⟩ := feedBytes_header v h hw.1
    rw [decodeStream_begun hv]
    exact (feedsTo_rows he d.startFrame_holds (by simp; omega)).of_quiet hfed
      (deliveries_of_quiet (n := 1) hout)
  | frame B bytes hB ih =>
    intro h hw
    obtain ⟨t, hfed, ⟨e, he, hwaiting, -⟩, hout, -⟩ := feedBytes_frame bytes h hw.1 hB
    rw [decodeStream_frame bytes hB]
    exact (ih t e he hwaiting).of_rest hfed (deliveries_of_bitmap hout)

/-! ### From any stable state -/

/-- The bytes of the frame in progress, its header included. -/
def LinkState.inProgress : LinkState → List Byte
  | .waiting => []
  | .collecting rows => Config.headerByte :: rows

theorem LinkState.inProgress_append (rows bytes : List Byte) :
    (LinkState.collecting rows).inProgress ++ bytes = Config.headerByte :: (rows ++ bytes) := rfl

/-- A stable instance decodes what comes as a waiting one that is fed the frame in progress first. -/
theorem feedsTo_decodeStream {s : State} {id : Nat} {d : Decoder} (bytes : List Byte) (h : s.decoder? id = some d)
    (hd : d.Stable) : s.FeedsTo id bytes (decodeStream (d.view.inProgress ++ bytes)).1
      (decodeStream (d.view.inProgress ++ bytes)).2 := by
  rcases hd.shape with hw | hv
  · rw [hw.view_eq]
    exact decoderComputesStreamFunction s id d bytes h hw
  · rw [hv.view_eq, LinkState.inProgress_append]
    by_cases hlt : d.rows.length + bytes.length ≤ 7
    · rw [decodeStream_begun (by simp; omega)]
      exact feedsTo_rows h hv hlt
    · obtain ⟨vs, rest, rfl, hvs⟩ : ∃ vs rest, bytes = vs ++ rest ∧ d.rows.length + vs.length = 8 :=
        ⟨bytes.take (8 - d.rows.length), bytes.drop (8 - d.rows.length), by simp, by simp; omega⟩
      obtain ⟨t, hfed, ⟨e, he, hwaiting, -⟩, hout, -⟩ := feedBytes_complete rest h hv hvs
      have hsplit : Config.headerByte :: (d.rows ++ (vs ++ rest)) = frameOf (d.rows ++ vs) ++ rest := by simp [frameOf]
      rw [hsplit, decodeStream_frame rest (by simpa using hvs)]
      exact State.FeedsTo.of_rest (decoderComputesStreamFunction t id e rest he hwaiting) hfed
        (deliveries_of_bitmap hout)

/-- The law by which the statements below read off a stream: where `Decode` ends waiting, so does the instance. -/
theorem feedBytes_of_decodeStream {s : State} {id : Nat} {d : Decoder} {bytes : List Byte} {ds : List (List Byte)}
    (h : s.decoder? id = some d) (hd : d.Stable)
    (hdecode : decodeStream (d.view.inProgress ++ bytes) = (.waiting, ds)) :
    ∃ t e, feedBytes id bytes s = .next t ∧ t.decoder? id = some e ∧ e.IsWaiting ∧
      t.deliveries id = s.deliveries id ++ ds := by
  have hfeeds := feedsTo_decodeStream bytes h hd
  rw [hdecode] at hfeeds
  exact hfeeds.isWaiting

/-- The same from the state `W`. -/
theorem feedBytes_of_decodeStream_waiting {s : State} {id : Nat} {d : Decoder} {bytes : List Byte}
    {ds : List (List Byte)} (h : s.decoder? id = some d) (hw : d.IsWaiting)
    (hdecode : decodeStream bytes = (.waiting, ds)) :
    ∃ t e, feedBytes id bytes s = .next t ∧ t.decoder? id = some e ∧ e.IsWaiting ∧
      t.deliveries id = s.deliveries id ++ ds :=
  feedBytes_of_decodeStream h (.inl hw) (by rw [hw.view_eq]; exact hdecode)

/-! ### Whole frames and noise -/

/-- Settles O39: the bytes complete the frame in progress, or they do not. -/
theorem frameInProgressCompletes : Obligations.FrameInProgressCompletes := by
  intro s id d v bytes h hv
  have hle : v.length ≤ 7 := hv.2.2.1
  refine ⟨fun hl => feedBytes_of_decodeStream h hv.stable ?_, fun hl => (feedsTo_rows h hv (by omega)).holds⟩
  have hframe := decodeStream_frame (B := v ++ bytes) [] (by simp; omega)
  rw [List.append_nil] at hframe
  rw [hv.view_eq]
  exact hframe

/-- Settles O40: the frame is fed whole, and an accepting sink takes all eight rows. -/
theorem roundTrip : Obligations.RoundTrip := by
  intro s id d B h hw hB hanswer
  have haccept : ∀ k, k < B.length → s.sink.answer k = .accept := fun k hk => hanswer k (by omega)
  refine ⟨by rw [exec_encode, encodeRequest_of_length_eq hB], ?_⟩
  obtain ⟨t, hfed, ⟨e, he, hwaiting, -⟩, hout, -⟩ := feedBytes_frame [] h hw.1 hB
  obtain ⟨hok, hlen⟩ := deliver_of_accepted (p := s.params.sinkErrorPolicy) haccept
  rw [hok, deliver_events_eq_take, hlen, List.take_of_length_le (by simp), rowCalls_of_accepted haccept] at hout
  rw [List.append_nil] at hfed
  exact ⟨_, e, hfed.trans (feedBytes_nil id t), he, hwaiting, deliveries_of_bitmap hout, hout⟩

theorem encodeRequest_eq_frame_iff {B f : List Byte} :
    encodeRequest B = (.frame f, .ok) ↔ B.length = 8 ∧ f = 0xAA :: B := by
  by_cases hB : B.length = 8
  · simp [encodeRequest_of_length_eq hB, hB, eq_comm]
  · simp [encodeRequest_of_length_ne hB, hB]

/-- Frames with noise before each of them, and after the last. -/
theorem decodeStream_parts {parts : List (List Byte × List Byte)} {tail : List Byte}
    (hparts : ∀ p ∈ parts, Config.headerByte ∉ p.1 ∧ p.2.length = 8) (htail : Config.headerByte ∉ tail) :
    decodeStream ((parts.flatMap fun p => p.1 ++ frameOf p.2) ++ tail) = (.waiting, parts.map (·.2)) := by
  induction parts with
  | nil => exact decodeStream_of_noise htail
  | cons p parts ih =>
    rw [List.forall_mem_cons] at hparts
    obtain ⟨⟨hnoise, hB⟩, hrest⟩ := hparts
    rw [List.flatMap_cons, List.append_assoc, List.append_assoc, decodeStream_noise _ hnoise, decodeStream_frame _ hB,
      ih hrest]
    rfl

/-- Settles O41: the frames are the results of ENCODE, and `Decode` takes them out of the noise one by one. -/
theorem encoderAndDecoderAreInverse : Obligations.EncoderAndDecoderAreInverse := by
  refine ⟨fun f => ?_, fun B f hf => (encodeRequest_eq_frame_iff.1 hf).2, fun s id d parts tail h hw hparts htail =>
    feedBytes_of_decodeStream_waiting h hw (decodeStream_parts hparts htail)⟩
  simp only [encodeRequest_eq_frame_iff]
  constructor
  · rintro ⟨B, hB, rfl⟩
    simp [hB]
  · rintro ⟨hlen, hhead⟩
    obtain ⟨B, rfl⟩ := List.head?_eq_some_iff.1 hhead
    exact ⟨B, by simpa using hlen, rfl⟩

theorem bumpDiscards_iterate {width n : Nat} (k : Nat) (hn : n < 2 ^ width) :
    (bumpDiscards width)^[k] n = (n + k) % 2 ^ width := by
  induction k with
  | zero => exact (Nat.mod_eq_of_lt hn).symm
  | succ k ih => rw [Function.iterate_succ_apply', ih, bumpDiscards, Nat.mod_add_mod, Nat.add_assoc]

/-- A sound counter after `k` bytes of noise. -/
theorem Decoder.CounterSound.map_iterate {p : Params} {d : Decoder} (h : d.CounterSound p) (k : Nat) :
    d.discards.map (bumpDiscards p.discardCounterWidth)^[k] =
      d.discards.map fun n => (n + k) % 2 ^ p.discardCounterWidth := by
  obtain ⟨-, hlt⟩ := h
  cases hd : d.discards with
  | none => rfl
  | some n => simpa using bumpDiscards_iterate k (by simpa [hd] using hlt)

/-- Settles O42: noise is dropped byte by byte, and leaves `W` for the frame after it. -/
theorem noiseIsHarmless : Obligations.NoiseIsHarmless := by
  intro s id d noise B h hw hcounter hnoise hB
  have hcount := hcounter.map_iterate noise.length
  constructor
  · obtain ⟨t, hfed, he, hout, -⟩ := feedBytes_noise [] hnoise h hw.1
    rw [List.append_nil] at hfed
    exact ⟨_, hfed.trans (feedBytes_nil id t), hcount ▸ he, hout⟩
  · obtain ⟨t, hfed, he, hout, -⟩ := feedBytes_noise (frameOf B) hnoise h hw.1
    obtain ⟨u, hfed', ⟨e, he', hwaiting, hkeep⟩, hout', -⟩ := feedBytes_frame [] he hw.1 hB
    rw [List.append_nil] at hfed'
    have hdeliveries := (deliveries_of_bitmap hout').trans (congrArg (· ++ [B]) (deliveries_of_quiet hout))
    exact ⟨_, e, (hfed.trans hfed').trans (feedBytes_nil id u), he', hwaiting, hdeliveries, hkeep.trans hcount⟩

/-- Settles O43: the stream is one frame. -/
theorem noFalseRestart : Obligations.NoFalseRestart := by
  intro s id d r0 r1 r2 r4 r5 r6 r7 h hw
  exact feedBytes_of_decodeStream_waiting h hw (decodeStream_frame (B := [r0, r1, r2, 0xAA, r4, r5, r6, r7]) [] rfl)

/-- Settles O44: the second header is the last byte of one frame, and the rows after it are noise. -/
theorem lostRowByteMisframes : Obligations.LostRowByteMisframes := by
  intro s id d A B h hw hA hB hnoise
  have hsplit : 0xAA :: A.take 7 ++ frameOf B = frameOf (A.take 7 ++ [0xAA]) ++ B := by simp [frameOf]
  refine feedBytes_of_decodeStream_waiting h hw ?_
  rw [hsplit, decodeStream_frame B (by simp [hA]), decodeStream_of_noise hnoise]

end Sys2Proof.Machine
end

section
/-! PROOFS. Misframing and recovery (42_link R128, R129). -/

namespace Sys2Proof.Machine

/-! ### A frame entered at a row byte -/

theorem flatten_replicate_append_comm {α : Type*} (p q : List α) (n : Nat) :
    (List.replicate n (p ++ q)).flatten ++ p = p ++ (List.replicate n (q ++ p)).flatten := by
  induction n with
  | zero => simp
  | succ n ih => simp only [List.replicate_succ, List.flatten_cons, List.append_assoc, ih]

/-- Copies of two parts, entered at the second one and left after a first one, are copies in the other order. -/
theorem take_drop_flatten_replicate {α : Type*} (p q : List α) (n : Nat) :
    (((List.replicate (n + 1) (p ++ q)).flatten).drop p.length).take ((q.length + p.length) * n) =
      (List.replicate n (q ++ p)).flatten := by
  have hlen : ((List.replicate n (q ++ p)).flatten).length = (q.length + p.length) * n := by
    simp [List.length_flatten, Nat.mul_comm]
  rw [List.replicate_succ', List.flatten_concat, ← List.append_assoc, flatten_replicate_append_comm, List.append_assoc,
    List.drop_left, ← hlen, List.take_left]

/-- Copies of a frame, entered at a row byte with the header's value, are copies of the frame of the rotated Bitmap. -/
theorem rotated_frames {x : List Byte} {j : Nat} (copies : Nat) (hx : x.length = 8) (hj : x[j]? = some 0xAA) :
    (((List.replicate (copies + 1) (frameOf x)).flatten).drop (j + 1)).take (9 * copies) =
      (List.replicate copies (x.drop (j + 1) ++ [0xAA] ++ x.take j)).flatMap frameOf := by
  obtain ⟨hlt, hget⟩ := List.getElem?_eq_some_iff.1 hj
  have hcut : frameOf x = (0xAA :: x.take j) ++ (0xAA :: x.drop (j + 1)) := by
    rw [List.cons_append, ← hget, List.getElem_cons_drop, List.take_append_drop, hget]
    rfl
  have hrotated : frameOf (x.drop (j + 1) ++ [0xAA] ++ x.take j) = (0xAA :: x.drop (j + 1)) ++ (0xAA :: x.take j) := by
    simp [frameOf]
  have hp : (0xAA :: x.take j : List Byte).length = j + 1 := by simp; omega
  have hq : (0xAA :: x.drop (j + 1) : List Byte).length + (j + 1) = 9 := by simp; omega
  have hcopies := take_drop_flatten_replicate (0xAA :: x.take j) (0xAA :: x.drop (j + 1)) copies
  rw [hp, hq] at hcopies
  rw [List.flatMap_replicate, hrotated, hcut, hcopies]

/-- Settles O45: each copy of the rotated frame is one delivery. -/
theorem misframingCanLastForever : Obligations.MisframingCanLastForever := by
  intro s id d x j copies h hw hx hj
  have hlen : ∀ B ∈ List.replicate copies (x.drop (j + 1) ++ [0xAA] ++ x.take j), B.length = 8 := fun B hB => by
    obtain ⟨hlt, -⟩ := List.getElem?_eq_some_iff.1 hj
    rw [List.eq_of_mem_replicate hB]
    simp
    omega
  rw [rotated_frames copies hx hj]
  exact feedBytes_of_decodeStream_waiting h hw (decodeStream_frames hlen)

/-! ### The next genuine header -/

/-- In a suffix of frames without a row byte of the header's value, what comes before the next header is noise. -/
theorem drop_frames {frames : List (List Byte)} {p : Nat} (h : ∀ B ∈ frames, B.length = 8 ∧ Config.headerByte ∉ B)
    (hp : p ≤ 9 * frames.length) :
    ∃ j noise, 9 * j = p + noise.length ∧ noise.length ≤ 8 ∧ Config.headerByte ∉ noise ∧
      (frames.flatMap frameOf).drop p = noise ++ (frames.drop j).flatMap frameOf := by
  induction frames generalizing p with
  | nil =>
    obtain rfl : p = 0 := Nat.le_zero.1 hp
    exact ⟨0, [], by simp⟩
  | cons B frames ih =>
    rw [List.forall_mem_cons] at h
    obtain ⟨⟨hB, hfree⟩, hrest⟩ := h
    cases p with
    | zero => exact ⟨0, [], by simp⟩
    | succ p =>
      rw [List.flatMap_cons, frameOf, List.cons_append, List.drop_succ_cons]
      by_cases hin : p ≤ 8
      · refine ⟨1, B.drop p, by simp; omega, by simp; omega, fun hm => hfree (List.mem_of_mem_drop hm), ?_⟩
        rw [List.drop_append_of_le_length (by omega)]
        rfl
      · rw [List.length_cons] at hp
        obtain ⟨j, noise, hj, hle, hnoise, hdrop⟩ := ih (p := p - 8) hrest (by omega)
        refine ⟨j + 1, noise, by omega, hle, hnoise, ?_⟩
        rw [List.drop_append, List.drop_eq_nil_of_le (by omega), hB, hdrop]
        rfl

/-- A stable instance waits again after at most eight bytes, and at most one delivery. -/
theorem Decoder.Stable.waits_after {d : Decoder} (h : d.Stable) :
    ∃ m, m ≤ 8 ∧ ∀ first : List Byte, first.length = m → ∃ before : List (List Byte), before.length ≤ 1 ∧
      ∀ rest, decodeStream (d.view.inProgress ++ (first ++ rest)) =
        ((decodeStream rest).1, before ++ (decodeStream rest).2) := by
  rcases h.shape with hw | hv
  · refine ⟨0, Nat.zero_le _, fun first hfirst => ⟨[], Nat.zero_le _, fun rest => ?_⟩⟩
    rw [List.eq_nil_of_length_eq_zero hfirst, hw.view_eq]
    rfl
  · have hle : d.rows.length ≤ 7 := hv.2.2.1
    refine ⟨8 - d.rows.length, Nat.sub_le _ _, fun first hfirst => ⟨[d.rows ++ first], le_rfl, fun rest => ?_⟩⟩
    rw [hv.view_eq, LinkState.inProgress_append, ← List.append_assoc]
    exact decodeStream_frame rest (by simp; omega)

theorem length_flatMap_frameOf {frames : List (List Byte)} (h : ∀ B ∈ frames, B.length = 8) :
    (frames.flatMap frameOf).length = 9 * frames.length := by
  have hnine : ∀ B ∈ frames, (frameOf B).length = 9 := fun B hB => congrArg (· + 1) (h B hB)
  rw [List.length_flatMap, List.map_congr_left hnine, List.map_const', List.sum_replicate_nat, Nat.mul_comm]

/-- Settles O46: the frame in progress takes at most eight bytes, the rows left before the next header are noise, at
most eight more, and from there on the frames are whole. -/
theorem recoveryIsBounded : Obligations.RecoveryIsBounded := by
  intro s id d frames offset h hd hframes hlen
  obtain ⟨m, hm, hwaits⟩ := hd.waits_after
  obtain ⟨j, noise, hj, hle, hnoise, hdrop⟩ := drop_frames (p := offset + m) hframes (by omega)
  obtain ⟨first, hfirst, hstream⟩ : ∃ first : List Byte, first.length = m ∧
      (frames.flatMap frameOf).drop offset = first ++ (noise ++ (frames.drop j).flatMap frameOf) := by
    have htotal := length_flatMap_frameOf fun B hB => (hframes B hB).1
    refine ⟨((frames.flatMap frameOf).drop offset).take m, by simp only [List.length_take, List.length_drop]; omega, ?_⟩
    rw [← hdrop, ← List.drop_drop, List.take_append_drop]
  obtain ⟨before, hbefore, hdecode⟩ := hwaits first hfirst
  refine ⟨j, before, hbefore, by omega, by omega, ?_, ?_⟩
  · have hlength : 9 * j - offset = (first ++ noise).length := by simp; omega
    rw [hstream, ← List.append_assoc, hlength, List.take_left]
    refine feedBytes_of_decodeStream h hd ?_
    rw [hdecode, decodeStream_of_noise hnoise, List.append_nil]
  · have hwhole : decodeStream ((frames.drop j).flatMap frameOf) = (.waiting, frames.drop j) :=
      decodeStream_frames fun B hB => (hframes B (List.mem_of_mem_drop hB)).1
    rw [hstream, List.append_assoc]
    refine feedBytes_of_decodeStream h hd ?_
    rw [hdecode, decodeStream_noise _ hnoise, hwhole]

end Sys2Proof.Machine
end

section
/-! PROOFS. IDLE commands change no run (42_link R131): an instruction does the same whatever was shown before it and
whatever comes after it. -/

namespace Sys2Proof.Machine

open Host (Outcome)

/-! ### Earlier records and later inputs -/

/-- The machine with other records before its own, and other inputs to come. -/
def State.between (s : State) (earlier : List StepRecord) (coming : List Input) : State :=
  { s with inputs := coming, outputs := earlier ++ s.outputs }

/-- Change the next state of a step. -/
def mapNext (f : State → State) : Outcome State Fault Refusal → Outcome State Fault Refusal
  | .next t => .next (f t)
  | .fault e => .fault e
  | .refused r => .refused r

section Between

variable (s : State) (earlier : List StepRecord) (coming : List Input)

theorem State.finish_between (u : UnitId) (r : StepResult) (st : Status) (es : List WriteRow) :
    (s.between earlier coming).finish u r st es = (s.finish u r st es).between earlier coming := by
  simp [State.finish, State.between]

theorem State.finishQuiet_between (r : StepResult) :
    (s.between earlier coming).finishQuiet r = (s.finishQuiet r).between earlier coming :=
  s.finish_between earlier coming _ r .ok []

theorem finishDelivery_between (B : List Byte) :
    finishDelivery B (s.between earlier coming) = (finishDelivery B s).between earlier coming :=
  State.finish_between { s with sink := (deliver s.params.sinkErrorPolicy B s.sink).sink } earlier coming _ _ _ _

theorem State.setQuiet_between (d : Decoder) :
    ((s.between earlier coming).setDecoder s.active d).finishQuiet .nothing =
      ((s.setDecoder s.active d).finishQuiet .nothing).between earlier coming :=
  (s.setDecoder s.active d).finishQuiet_between earlier coming .nothing

variable {s earlier coming}

theorem onActive_between {f g : Decoder → Outcome State Fault Refusal}
    (h : ∀ d, f d = mapNext (·.between earlier coming) (g d)) :
    onActive (s.between earlier coming) f = mapNext (·.between earlier coming) (onActive s g) := by
  cases hd : s.decoder? s.active with
  | none => rw [onActive_none hd, onActive_none (s := s.between earlier coming) hd]; rfl
  | some d => rw [onActive_eq hd, onActive_eq (s := s.between earlier coming) hd, h]

theorem execFeedHdr_between :
    execFeedHdr (s.between earlier coming) = mapNext (·.between earlier coming) (execFeedHdr s) := by
  refine onActive_between fun d => ?_
  split
  · exact congrArg Outcome.next (s.setQuiet_between earlier coming _)
  · rfl

theorem execFeedDiscard_between (b : Byte) :
    execFeedDiscard b (s.between earlier coming) = mapNext (·.between earlier coming) (execFeedDiscard b s) := by
  refine onActive_between fun d => ?_
  split
  · exact congrArg Outcome.next (s.setQuiet_between earlier coming _)
  · rfl

theorem execFeedRow_between (k : BitVec 3) (b : Byte) :
    execFeedRow k b (s.between earlier coming) = mapNext (·.between earlier coming) (execFeedRow k b s) := by
  refine onActive_between fun d => ?_
  split
  · exact congrArg Outcome.next (s.setQuiet_between earlier coming _)
  · rfl

theorem execFeedLast_between (b : Byte) :
    execFeedLast b (s.between earlier coming) = mapNext (·.between earlier coming) (execFeedLast b s) := by
  refine onActive_between fun d => ?_
  split
  · split
    · exact congrArg Outcome.next (finishDelivery_between (s.setDecoder s.active _) earlier coming _)
    · rfl
  · rfl

theorem execFeed_between (b : Byte) :
    execFeed b (s.between earlier coming) = mapNext (·.between earlier coming) (execFeed b s) := by
  refine onActive_between fun d => ?_
  split
  · split
    · exact execFeedHdr_between
    · exact execFeedDiscard_between b
  · split
    · exact execFeedLast_between b
    · exact execFeedRow_between _ b

/-- No instruction reads what was shown before it or what comes after it. -/
theorem exec_between (i : Instr) :
    exec i (s.between earlier coming) = mapNext (·.between earlier coming) (exec i s) := by
  cases i with
  | idle => exact onActive_between fun _ => congrArg Outcome.next (s.finishQuiet_between earlier coming _)
  | feed b => exact execFeed_between b
  | reset => exact congrArg Outcome.next (s.setQuiet_between earlier coming _)
  | rdcnt =>
    refine onActive_between fun d => ?_
    split
    · exact congrArg Outcome.next (s.finishQuiet_between earlier coming _)
    · rfl
  | feedLast b => exact execFeedLast_between b
  | feedRow k b => exact execFeedRow_between k b
  | feedHdr => exact execFeedHdr_between
  | feedDiscard b => exact execFeedDiscard_between b
  | encode data => exact congrArg Outcome.next (s.finish_between earlier coming _ _ _ _)

end Between

/-! ### Machines that differ in quiet records -/

/-- A record with a result or an error. -/
def StepRecord.tells (r : StepRecord) : Bool := r.result != .nothing || r.status != .ok

/-- Two machines alike but for quiet records, the inputs to come and the address. -/
structure State.AlikeButQuiet (s u : State) : Prop where
  params : u.params = s.params
  decoders : u.decoders = s.decoders
  sink : u.sink = s.sink
  outputs : u.outputs.filter StepRecord.tells = s.outputs.filter StepRecord.tells

/-- The machine with nothing shown and nothing to come. -/
def State.bare (s : State) : State := { s with inputs := [], outputs := [] }

theorem State.bare_between (s : State) : s.bare.between s.outputs s.inputs = s := by
  simp [State.bare, State.between]

/-- A record that delivers tells something. -/
theorem StepRecord.tells_of_delivered? {id : Nat} {r : StepRecord} (h : (r.delivered? id).isSome = true) :
    r.tells = true := by
  unfold StepRecord.delivered? at h
  split at h
  · rename_i hr
    simp [StepRecord.tells, hr]
  · cases h

theorem State.deliveries_eq_filter_tells (s : State) (id : Nat) :
    s.deliveries id = (s.outputs.filter StepRecord.tells).filterMap (StepRecord.delivered? id) := by
  rw [List.filterMap_filter]
  refine List.filterMap_congr fun r _ => ?_
  split
  · rfl
  · exact Option.not_isSome_iff_eq_none.1 (mt StepRecord.tells_of_delivered? ‹_›)

section AlikeButQuiet

variable {s t u : State}

theorem State.AlikeButQuiet.refl (s : State) : s.AlikeButQuiet s :=
  ⟨rfl, rfl, rfl, rfl⟩

theorem State.AlikeButQuiet.symm (h : s.AlikeButQuiet u) : u.AlikeButQuiet s :=
  ⟨h.params.symm, h.decoders.symm, h.sink.symm, h.outputs.symm⟩

theorem State.AlikeButQuiet.trans (h : s.AlikeButQuiet t) (h' : t.AlikeButQuiet u) : s.AlikeButQuiet u :=
  ⟨h'.params.trans h.params, h'.decoders.trans h.decoders, h'.sink.trans h.sink, h'.outputs.trans h.outputs⟩

theorem State.AlikeButQuiet.decoder? (h : s.AlikeButQuiet u) (id : Nat) : u.decoder? id = s.decoder? id :=
  congrArg (lookupDecoder id) h.decoders

theorem State.AlikeButQuiet.deliveries (h : s.AlikeButQuiet u) (id : Nat) : u.deliveries id = s.deliveries id := by
  rw [State.deliveries_eq_filter_tells, h.outputs, ← State.deliveries_eq_filter_tells]

/-- Two ends of a step that show the same. -/
theorem State.AlikeButQuiet.finish (h : s.AlikeButQuiet u) (n : UnitId) (r : StepResult) (st : Status)
    (es : List WriteRow) : (s.finish n r st es).AlikeButQuiet (u.finish n r st es) :=
  ⟨h.params, h.decoders, h.sink, by simp [h.outputs]⟩

/-- The same instruction, addressed to the same instance. -/
theorem exec_alikeButQuiet {i : Instr} (h : s.AlikeButQuiet u) (ha : u.active = s.active)
    (hs : exec i s = .next t) : ∃ v, exec i u = .next v ∧ t.AlikeButQuiet v := by
  have hu : s.bare.between u.outputs u.inputs = u := by
    simp [State.bare, State.between, ← h.params, ← h.decoders, ← h.sink, ← ha]
  rw [← s.bare_between, exec_between] at hs
  rw [← hu, exec_between]
  cases hbare : exec i s.bare with
  | next c =>
    cases hbare ▸ hs
    exact ⟨_, rfl, rfl, rfl, rfl, by simp [State.between, h.outputs]⟩
  | fault e => cases hbare ▸ hs
  | refused r => cases hbare ▸ hs

/-- The same input. -/
theorem step_alikeButQuiet {x : Input} {xs : List Input} (ys : List Input) (h : s.AlikeButQuiet u)
    (hs : step { s with inputs := x :: xs } = .next t) :
    ∃ v, step { u with inputs := x :: ys } = .next v ∧ t.AlikeButQuiet v := by
  cases x with
  | request data =>
    cases (step_request rfl).symm.trans hs
    refine ⟨_, step_request rfl, State.AlikeButQuiet.finish ?_ _ _ _ _⟩
    exact ⟨h.params, h.decoders, h.sink, h.outputs⟩
  | command id w =>
    obtain ⟨i, hw, hi⟩ := step_command_next rfl hs
    have htaken : State.AlikeButQuiet { s with inputs := xs, active := id } { u with inputs := ys, active := id } :=
      ⟨h.params, h.decoders, h.sink, h.outputs⟩
    obtain ⟨v, hv, htv⟩ := exec_alikeButQuiet htaken rfl hi
    refine ⟨v, (step_command (s := { u with inputs := .command id w :: ys }) rfl ?_).trans hv, htv⟩
    rw [← hw]
    exact congrArg (decodeCommand · w) (congrArg _ h.params)

end AlikeButQuiet

/-! ### IDLE -/

/-- An IDLE input spells IDLE, on every machine (30_encoding R67). -/
theorem Input.eq_command_of_isIdle {x : Input} (h : x.isIdle = true) :
    ∃ id w, x = .command id w ∧ ∀ counter, decodeCommand counter w = .ok .idle := by
  cases x with
  | request data => cases h
  | command id w =>
    have hop : opField w = 0b00#2 := by simpa [Input.isIdle] using h
    refine ⟨id, w, rfl, fun counter => ?_⟩
    rw [← makeCommand_fields w, hop, decodeCommand_idle]

/-- An IDLE that completes adds a quiet record and nothing else. -/
theorem step_idle_alikeButQuiet {x : Input} {xs : List Input} {s t : State} (hx : x.isIdle = true)
    (hs : step { s with inputs := x :: xs } = .next t) : s.AlikeButQuiet t := by
  obtain ⟨id, w, rfl, hw⟩ := Input.eq_command_of_isIdle hx
  have hi := (step_command (s := { s with inputs := .command id w :: xs }) rfl (hw _)).symm.trans hs
  cases exec_next_cases hi with
  | idle d hd => exact ⟨rfl, rfl, rfl, by simp [StepRecord.tells]⟩
  | feed _ b d _ hfeed => cases hfeed

/-- An IDLE to a constructed instance completes. -/
theorem step_idle_completes {id : Nat} {w : CommandWord} {xs : List Input} {s : State}
    (hx : (Input.command id w).isIdle = true) (hid : (s.decoder? id).isSome = true) :
    ∃ t, step { s with inputs := .command id w :: xs } = .next t := by
  obtain ⟨_, _, heq, hw⟩ := Input.eq_command_of_isIdle hx
  cases heq
  obtain ⟨d, hd⟩ := Option.isSome_iff_exists.1 hid
  exact ⟨_, (step_command (s := { s with inputs := .command id w :: xs }) rfl (hw _)).trans
    (onActive_eq (s := { s with inputs := xs, active := id }) hd _)⟩

/-! ### Runs -/

/-- A run with its IDLEs taken out, from a machine alike. -/
theorem runInputs_without_idles {xs : List Input} {s t u : State} (h : s.AlikeButQuiet u)
    (hrun : runInputs xs s = .next t) :
    ∃ v, runInputs (xs.filter fun x => !x.isIdle) u = .next v ∧ t.AlikeButQuiet v := by
  induction xs generalizing s u with
  | nil =>
    cases (runInputs_nil s).symm.trans hrun
    exact ⟨_, runInputs_nil u, h.params, h.decoders, h.sink, h.outputs⟩
  | cons x xs ih =>
    obtain ⟨s', hstep, -, hrest⟩ := runInputs_cons_next hrun
    by_cases hx : x.isIdle = true
    · rw [List.filter_cons_of_neg (by simp [hx])]
      exact ih ((step_idle_alikeButQuiet hx hstep).symm.trans h) hrest
    · rw [List.filter_cons_of_pos (by simp [hx])]
      obtain ⟨u', hu', hsame⟩ := step_alikeButQuiet _ h hstep
      obtain ⟨v, hv, hsame'⟩ := ih hsame hrest
      exact ⟨v, (runInputs_cons hu' (step_inputs hu')).trans hv, hsame'⟩

theorem exec_keeps_constructed {i : Instr} {s t : State} {id : Nat} (h : exec i s = .next t)
    (hid : (s.decoder? id).isSome = true) : (t.decoder? id).isSome = true := by
  have hset : ∀ d, ((s.setDecoder s.active d).decoder? id).isSome = true := fun d => by
    by_cases hactive : id = s.active
    · simp [hactive]
    · rw [s.decoder?_setDecoder_ne hactive, hid]
  cases exec_next_cases h with
  | idle => exact hid
  | reset => exact hset _
  | rdcnt => exact hid
  | encode => exact hid
  | feed _ b d _ hi hd hn =>
    cases hn with
    | hdr => exact hset _
    | discard => exact hset _
    | row => exact hset _
    | last => exact hset _

theorem step_keeps_constructed {s t : State} {id : Nat} (h : step s = .next t)
    (hid : (s.decoder? id).isSome = true) : (t.decoder? id).isSome = true := by
  rcases step_next_cases h with rfl | ⟨i, rest, j, hi⟩
  · exact hid
  · exact exec_keeps_constructed hi hid

/-- A run with IDLEs put in, to instances that are constructed, from a machine alike. -/
theorem runInputs_with_idles {xs : List Input} {s t u : State} (h : s.AlikeButQuiet u)
    (hrun : runInputs (xs.filter fun x => !x.isIdle) s = .next t)
    (hbuilt : ∀ (id : Nat) (w : CommandWord), Input.command id w ∈ xs → (Input.command id w).isIdle = true →
      (u.decoder? id).isSome = true) : ∃ v, runInputs xs u = .next v := by
  induction xs generalizing s u with
  | nil => exact ⟨_, runInputs_nil u⟩
  | cons x xs ih =>
    obtain ⟨s', u', hu', hsame, hrest⟩ : ∃ s' u', step { u with inputs := x :: xs } = .next u' ∧ s'.AlikeButQuiet u' ∧
        runInputs (xs.filter fun x => !x.isIdle) s' = .next t := by
      by_cases hx : x.isIdle = true
      · rw [List.filter_cons_of_neg (by simp [hx])] at hrun
        obtain ⟨id, w, rfl, -⟩ := Input.eq_command_of_isIdle hx
        obtain ⟨u', hu'⟩ := step_idle_completes (xs := xs) hx (hbuilt id w List.mem_cons_self hx)
        exact ⟨s, u', hu', h.trans (step_idle_alikeButQuiet hx hu'), hrun⟩
      · rw [List.filter_cons_of_pos (by simp [hx])] at hrun
        obtain ⟨s', hs', -, hrest⟩ := runInputs_cons_next hrun
        obtain ⟨u', hu', hsame⟩ := step_alikeButQuiet xs h hs'
        exact ⟨s', u', hu', hsame, hrest⟩
    obtain ⟨v, hv⟩ := ih hsame hrest fun id w hmem hidle =>
      step_keeps_constructed hu' (hbuilt id w (List.mem_cons_of_mem _ hmem) hidle)
    exact ⟨v, (runInputs_cons hu' (step_inputs hu')).trans hv⟩

/-- No FEED is an IDLE. -/
theorem filter_feedInputs (id : Nat) (bytes : List Byte) :
    ((feedInputs id bytes).filter fun x => !x.isIdle) = feedInputs id bytes := by
  simp [feedInputs, List.filter_map, Function.comp_def, Input.isIdle]

/-- Two parts of a stream fed to instance `id`, with a gap of IDLEs between them. -/
def feedWithGap (id gap : Nat) (first rest : List Byte) : List Input :=
  feedInputs id first ++ List.replicate gap (.command id 0x000) ++ feedInputs id rest

theorem filter_feedWithGap (id gap : Nat) (first rest : List Byte) :
    ((feedWithGap id gap first rest).filter fun x => !x.isIdle) = feedInputs id (first ++ rest) := by
  have hgap : ((List.replicate gap (Input.command id 0x000)).filter fun x => !x.isIdle) = [] :=
    List.filter_eq_nil_iff.2 fun x hx => by simp [List.eq_of_mem_replicate hx, Input.isIdle, opField]
  rw [feedWithGap, List.filter_append, List.filter_append, filter_feedInputs, filter_feedInputs, hgap,
    List.append_nil]
  exact List.map_append.symm

theorem addresses_of_mem_feedWithGap {id gap j : Nat} {first rest : List Byte} {w : CommandWord}
    (h : Input.command j w ∈ feedWithGap id gap first rest) : j = id := by
  simp only [feedWithGap, feedInputs, List.mem_append, List.mem_map, List.mem_replicate, Input.command.injEq] at h
  rcases h with (⟨_, _, hj, _⟩ | ⟨_, hj, _⟩) | ⟨_, _, hj, _⟩
  · exact hj.symm
  · exact hj
  · exact hj.symm

/-- The gap changes nothing but the quiet records. -/
theorem feedBytes_with_gap {s t : State} {id : Nat} {d : Decoder} {first rest : List Byte} (gap : Nat)
    (h : s.decoder? id = some d) (hfed : feedBytes id (first ++ rest) s = .next t) :
    ∃ u, runInputs (feedWithGap id gap first rest) s = .next u ∧ u.AlikeButQuiet t := by
  have hfilter := congrArg (runInputs · s) (filter_feedWithGap id gap first rest)
  obtain ⟨u, hu⟩ := runInputs_with_idles (.refl s) (hfilter.trans hfed) fun j w hmem _ => by
    rw [addresses_of_mem_feedWithGap hmem, h]
    rfl
  obtain ⟨v, hv, hsame⟩ := runInputs_without_idles (.refl s) hu
  cases (hfilter.symm.trans hv).symm.trans hfed
  exact ⟨u, hu, hsame⟩

/-- Settles O47: the runs with and without the IDLEs go through machines alike but for quiet records, and a frame with a
gap is the frame with IDLEs put in. -/
theorem idlesChangeNoRun : Obligations.IdlesChangeNoRun := by
  refine ⟨fun s t xs hrun => ?_, fun s u xs hrun hbuilt => runInputs_with_idles (.refl s) hrun hbuilt,
    fun s id gap d v w h hw hv hw3 => ?_⟩
  · obtain ⟨u, hu, hsame⟩ := runInputs_without_idles (.refl s) hrun
    exact ⟨u, hu, hsame.decoders, hsame.sink, hsame.deliveries, hsame.outputs⟩
  · have hdecode := decodeStream_frame (B := v ++ w) [] (by simp [hv, hw3])
    obtain ⟨t, e, hfed, he, hwaiting, hdeliveries⟩ := feedBytes_of_decodeStream_waiting h hw hdecode
    rw [List.append_nil] at hfed
    obtain ⟨u, hu, hsame⟩ := feedBytes_with_gap (first := 0xAA :: v) gap h hfed
    exact ⟨u, e, hu, (hsame.decoder? id).symm.trans he, hwaiting, (hsame.deliveries id).symm.trans hdeliveries⟩

end Sys2Proof.Machine
end

section
/-! PROOFS. After a completed frame (42_link R132): what a machine shows depends on the framing states of its instances,
and on a discard counter only through RDCNT. -/

namespace Sys2Proof.Machine

/-! ### Instances in the same framing state -/

section Framing

variable {d e : Decoder}

theorem Decoder.framing_eq_iff : e.framing = d.framing ↔ e.mode = d.mode ∧ e.cnt = d.cnt ∧ e.row = d.row := by
  simp [Decoder.framing]

theorem Decoder.append_framing (b : Byte) (h : e.framing = d.framing) :
    (e.append b).framing = (d.append b).framing := by
  obtain ⟨hm, hc, hr⟩ := Decoder.framing_eq_iff.1 h
  simp [Decoder.framing, hm, hc, hr]

/-- A frame begins alike in every instance, and ends alike. -/
theorem Decoder.startFrame_framing (d e : Decoder) : e.startFrame.framing = d.startFrame.framing := rfl

theorem Decoder.endFrame_framing (d e : Decoder) : e.endFrame.framing = d.endFrame.framing := rfl

theorem Decoder.readRows_of_row_eq (h : e.row = d.row) (i n : Nat) : e.readRows i n = d.readRows i n := by
  induction n generalizing i with
  | zero => rfl
  | succ n ih => simp only [Decoder.readRows, Decoder.memRead, h, ih]

end Framing

/-! ### Machines that differ in discard counters -/

/-- Two machines with the same parameters and sink, whose instances differ in their discard counters at most. -/
structure State.AlikeButCounters (s u : State) : Prop where
  params : u.params = s.params
  sink : u.sink = s.sink
  framing : ∀ id, (u.decoder? id).map Decoder.framing = (s.decoder? id).map Decoder.framing

/-- Two steps that show the same and lead to machines alike. -/
def SameShown (s u t v : State) : Prop :=
  t.AlikeButCounters v ∧ ∃ r : StepRecord, t.outputs = s.outputs ++ [r] ∧ v.outputs = u.outputs ++ [r]

section AlikeButCounters

variable {s t u : State}

theorem State.AlikeButCounters.decoder (h : s.AlikeButCounters u) {id : Nat} {d : Decoder}
    (hd : s.decoder? id = some d) : ∃ e, u.decoder? id = some e ∧ e.framing = d.framing := by
  have hmap := h.framing id
  rw [hd] at hmap
  exact Option.map_eq_some_iff.1 hmap

theorem State.AlikeButCounters.setDecoder {d e : Decoder} (h : s.AlikeButCounters u) (id : Nat)
    (hde : e.framing = d.framing) : (s.setDecoder id d).AlikeButCounters (u.setDecoder id e) := by
  refine ⟨h.params, h.sink, fun j => ?_⟩
  by_cases hj : j = id
  · subst hj
    simp [hde]
  · rw [State.decoder?_setDecoder_ne _ hj, State.decoder?_setDecoder_ne _ hj]
    exact h.framing j

theorem State.AlikeButCounters.finish (h : s.AlikeButCounters u) (n : UnitId) (r : StepResult) (st : Status)
    (es : List WriteRow) : SameShown s u (s.finish n r st es) (u.finish n r st es) :=
  ⟨⟨h.params, h.sink, h.framing⟩, _, rfl, rfl⟩

section Active

variable (h : s.AlikeButCounters u) (ha : u.active = s.active)
include h ha

/-- Two quiet ends of a step. -/
theorem sameShown_finishQuiet : SameShown s u (s.finishQuiet .nothing) (u.finishQuiet .nothing) := by
  unfold State.finishQuiet
  rw [ha]
  exact h.finish _ _ _ _

theorem sameShown_setQuiet {d e : Decoder} (hde : e.framing = d.framing) :
    SameShown s u ((s.setDecoder s.active d).finishQuiet .nothing)
      ((u.setDecoder u.active e).finishQuiet .nothing) := by
  rw [ha]
  exact sameShown_finishQuiet (h.setDecoder s.active hde) ha

/-- Two deliveries of the same Bitmap: the sink answers alike. -/
theorem sameShown_finishDelivery {d e : Decoder} (hde : e.framing = d.framing) (B : List Byte) :
    SameShown s u (finishDelivery B (s.setDecoder s.active d)) (finishDelivery B (u.setDecoder u.active e)) := by
  have hset := h.setDecoder s.active hde
  simp only [finishDelivery, State.setDecoder_params, State.setDecoder_sink, State.setDecoder_active, ha, h.params,
    h.sink]
  exact ⟨⟨rfl, rfl, hset.framing⟩, _, rfl, rfl⟩

/-- A FEED of the same byte takes the same case. -/
theorem execFeed_sameShown {b : Byte} (hs : exec (.feed b) s = .next t) :
    ∃ v, exec (.feed b) u = .next v ∧ SameShown s u t v := by
  obtain ⟨d, hd, hn⟩ := execFeed_next hs
  obtain ⟨e, he, hde⟩ := h.decoder hd
  rw [← ha] at he
  obtain ⟨hmode, hcnt, hrow⟩ := Decoder.framing_eq_iff.1 hde
  cases hn with
  | hdr hm hb =>
    subst hb
    exact ⟨_, exec_feed_waiting_header he (hmode.trans hm), sameShown_setQuiet h ha (d.startFrame_framing e)⟩
  | discard hm hb => exact ⟨_, exec_feed_waiting_noise he (hmode.trans hm) hb, sameShown_setQuiet h ha hde⟩
  | row hm hc =>
    exact ⟨_, exec_feed_row he (hmode.trans hm) (hcnt ▸ hc), sameShown_setQuiet h ha (Decoder.append_framing b hde)⟩
  | last B hm hc hB =>
    obtain ⟨-, -, happend⟩ := Decoder.framing_eq_iff.1 (Decoder.append_framing b hde)
    have hlast := execFeedLast_eq he (hmode.trans hm) (hcnt.trans hc)
      ((Decoder.readRows_of_row_eq happend 0 8).trans hB)
    exact ⟨_, (exec_feed_eq_feedLast he (hmode.trans hm) (hcnt.trans hc)).trans hlast,
      sameShown_finishDelivery h ha (d.endFrame_framing (e.append b)) B⟩

/-- The same command, if it is not RDCNT. -/
theorem exec_sameShown {i : Instr} (hi : CommandInstr s.params.hasDiscardCounter i) (hne : i ≠ .rdcnt)
    (hs : exec i s = .next t) : ∃ v, exec i u = .next v ∧ SameShown s u t v := by
  cases hi with
  | idle =>
    obtain ⟨d, hd, ht⟩ := onActive_next hs
    cases ht
    obtain ⟨e, he, -⟩ := h.decoder hd
    exact ⟨_, onActive_eq (ha ▸ he) _, sameShown_finishQuiet h ha⟩
  | feed b => exact execFeed_sameShown h ha hs
  | reset =>
    cases hs
    exact ⟨_, rfl, sameShown_setQuiet h ha (by rw [h.params])⟩
  | rdcnt => exact absurd rfl hne

end Active

/-- A word that is not RDCNT's does not spell RDCNT. -/
theorem decodeCommand_ne_rdcnt {id : Nat} {w : CommandWord} {counter : Bool} {i : Instr}
    (hw : (Input.command id w).isRdcnt = false) (hd : decodeCommand counter w = .ok i) : i ≠ .rdcnt := by
  rintro rfl
  rw [← makeCommand_fields w] at hd
  rcases operation_cases (opField w) with hop | hop | hop | hop
  · simp [hop] at hd
  · simp [hop] at hd
  · simp [hop] at hd
  · simp [Input.isRdcnt, hop] at hw

/-- The same input, if it is not RDCNT. -/
theorem step_sameShown {x : Input} {xs : List Input} (h : s.AlikeButCounters u) (hx : x.isRdcnt = false)
    (hs : step { s with inputs := x :: xs } = .next t) :
    ∃ v, step { u with inputs := x :: xs } = .next v ∧ SameShown s u t v := by
  cases x with
  | request data =>
    cases (step_request rfl).symm.trans hs
    exact ⟨_, step_request rfl, ⟨h.params, h.sink, h.framing⟩, _, rfl, rfl⟩
  | command id w =>
    obtain ⟨i, hw, hi⟩ := step_command_next rfl hs
    have htaken : State.AlikeButCounters { s with inputs := xs, active := id } { u with inputs := xs, active := id } :=
      ⟨h.params, h.sink, h.framing⟩
    obtain ⟨v, hv, hshown⟩ := exec_sameShown htaken rfl (decodeCommand_ok hw) (decodeCommand_ne_rdcnt hx hw) hi
    refine ⟨v, (step_command (s := { u with inputs := .command id w :: xs }) rfl ?_).trans hv, hshown⟩
    rw [← hw]
    exact congrArg (decodeCommand · w) (congrArg _ h.params)

/-- A run without RDCNT, on two machines that differ in discard counters. -/
theorem runInputs_sameRecords {xs : List Input} (h : s.AlikeButCounters u) (hxs : ∀ x ∈ xs, x.isRdcnt = false)
    (hrun : runInputs xs s = .next t) : ∃ v records, runInputs xs u = .next v ∧
      t.outputs = s.outputs ++ records ∧ v.outputs = u.outputs ++ records := by
  induction xs generalizing s u with
  | nil =>
    cases (runInputs_nil s).symm.trans hrun
    exact ⟨_, [], runInputs_nil u, by simp, by simp⟩
  | cons x xs ih =>
    rw [List.forall_mem_cons] at hxs
    obtain ⟨s', hstep, -, hrest⟩ := runInputs_cons_next hrun
    obtain ⟨u', hu', halike, r, hs', hr⟩ := step_sameShown h hxs.1 hstep
    obtain ⟨v, records, hv, ht, hvout⟩ := ih halike hxs.2 hrest
    exact ⟨v, r :: records, (runInputs_cons hu' (step_inputs hu')).trans hv, by simp [ht, hs'], by simp [hvout, hr]⟩

end AlikeButCounters

/-- Settles O48: FEED.LAST ends the frame, and the machines stay alike but for counters. -/
theorem completedFrameIsLikeReset : Obligations.CompletedFrameIsLikeReset := by
  refine ⟨fun s t b h => ?_, fun s u xs hparams hsink hframing hxs t hrun =>
    runInputs_sameRecords ⟨hparams.symm, hsink.symm, fun id => (hframing id).symm⟩ hxs hrun⟩
  obtain ⟨d, hd, hn, hm, hc⟩ := execFeedLast_next h
  cases hn with
  | hdr hw => simp [hm] at hw
  | discard hw => simp [hm] at hw
  | row _ hle => simp [hc] at hle
  | last B =>
    have hset : (finishDelivery B (s.setDecoder s.active d.endFrame)).decoder? s.active = some d.endFrame :=
      State.decoder?_setDecoder_self s s.active d.endFrame
    rw [hset, hd]
    exact ⟨rfl, rfl⟩

end Sys2Proof.Machine
end

section
/-! PROOFS. The errors (60_exceptions): the cause of every status (R140), and that an error leaves nothing behind
(R148, R149) and stops no legal command (R151). -/

namespace Sys2Proof.Machine

/-! ### The first rejected call -/

/-- The call of row `row` is the first one the sink rejected. -/
def FirstRejected (events : List WriteRow) (row : Nat) : Prop :=
  (∃ e, events[row]? = some e ∧ e.answer = .reject ∧ e.rowIndex = row) ∧
    ∀ (j : Nat) (e : WriteRow), j < row → events[j]? = some e → e.answer = .accept

section FirstRejected

variable {events : List WriteRow} {row row' : Nat}

theorem FirstRejected.not_lt (h : FirstRejected events row) (h' : FirstRejected events row') : ¬ row < row' := by
  intro hlt
  obtain ⟨⟨e, he, hreject, -⟩, -⟩ := h
  obtain ⟨-, hbefore⟩ := h'
  simp [hbefore row e hlt he] at hreject

theorem FirstRejected.unique (h : FirstRejected events row) (h' : FirstRejected events row') : row = row' :=
  Nat.le_antisymm (Nat.le_of_not_lt (h'.not_lt h)) (Nat.le_of_not_lt (h.not_lt h'))

theorem not_firstRejected_of_accepted (h : ∀ e ∈ events, e.answer = .accept) : ¬ FirstRejected events row := by
  rintro ⟨⟨e, he, hreject, -⟩, -⟩
  simp [h e (List.mem_of_getElem? he)] at hreject

end FirstRejected

/-- The event at position `k` of a delivery has the sink's answer to the `k`-th call. -/
theorem deliver_event_answer {p : SinkErrorPolicy} {B : List Byte} {sk : Sink} {k : Nat} {e : WriteRow}
    (he : (deliver p B sk).events[k]? = some e) : e.answer = sk.answer k := by
  obtain ⟨hk, -⟩ := List.getElem?_eq_some_iff.1 he
  obtain ⟨-, hcalls⟩ := deliverFrom_events p 0 B sk
  obtain ⟨v, -, rfl⟩ := Option.map_eq_some_iff.1 ((hcalls k hk).symm.trans he)
  rfl

/-- A delivery's status is read off its own events: OK with every call accepted, else the first rejected row. -/
theorem deliver_status_of_events (p : SinkErrorPolicy) (B : List Byte) (sk : Sink) :
    ((deliver p B sk).status = .ok ∧ ∀ e ∈ (deliver p B sk).events, e.answer = .accept) ∨
      ∃ row, (deliver p B sk).status = .sinkRejected row ∧ FirstRejected (deliver p B sk).events row := by
  rcases deliverFrom_status p 0 B sk with ⟨hok, hlen, haccept⟩ | ⟨k, hk, hstatus, hreject, hbefore, hlen⟩
  · refine .inl ⟨hok, fun e he => ?_⟩
    obtain ⟨k, hk, rfl⟩ := List.getElem_of_mem he
    exact (deliver_event_answer (List.getElem?_eq_getElem hk)).trans (haccept k (hlen ▸ hk))
  · have hcalled : k < (deliver p B sk).events.length := by
      cases p with
      | abortRemaining => exact Nat.lt_of_lt_of_eq k.lt_succ_self hlen.symm
      | continueRows => exact Nat.lt_of_lt_of_eq hk hlen.symm
    have he := List.getElem?_eq_getElem hcalled
    refine .inr ⟨k, hstatus.trans (congrArg _ k.zero_add), ⟨_, he, ?_, ?_⟩, fun j e hj hje => ?_⟩
    · exact (deliver_event_answer he).trans hreject
    · exact (deliver_event_index he).2
    · exact (deliver_event_answer hje).trans (hbefore j hj)

/-! ### The cause of a status -/

/-- Why the record `r` of instruction `i` has its status: the three rows of 60_exceptions R140, which exclude each
other. -/
inductive StatusCause (i : Instr) (r : StepRecord) : Prop
  | ok (hi : ∀ data, i = .encode data → data.length = 8) (hstatus : r.status = .ok)
      (haccept : ∀ e ∈ r.events, e.answer = .accept)
  | wrongLength (data : List Byte) (hi : i = .encode data) (hlen : data.length ≠ 8)
      (hstatus : r.status = .invalidBitmapLength data.length) (hevents : r.events = [])
  | rejected (row : Nat) (hi : ∀ data, i ≠ .encode data) (hstatus : r.status = .sinkRejected row)
      (hfirst : FirstRejected r.events row)

/-- The record of a decoder's step that makes no call. -/
theorem StatusCause.of_quiet {i : Instr} {u : UnitId} {result : StepResult} (hi : ∀ data, i ≠ .encode data) :
    StatusCause i ⟨u, result, .ok, []⟩ :=
  .ok (fun data h => absurd h (hi data)) rfl (by simp)

theorem StatusCause.of_encode (data : List Byte) :
    StatusCause (.encode data) ⟨.encoder, (encodeRequest data).1, (encodeRequest data).2, []⟩ := by
  by_cases hlen : data.length = 8
  · rw [encodeRequest_of_length_eq hlen]
    exact .ok (fun data' h => Instr.encode.inj h ▸ hlen) rfl (by simp)
  · rw [encodeRequest_of_length_ne hlen]
    exact .wrongLength data rfl hlen rfl rfl

theorem StatusCause.of_delivery {i : Instr} {u : UnitId} {result : StepResult} (hi : ∀ data, i ≠ .encode data)
    (p : SinkErrorPolicy) (B : List Byte) (sk : Sink) :
    StatusCause i ⟨u, result, (deliver p B sk).status, (deliver p B sk).events⟩ := by
  rcases deliver_status_of_events p B sk with ⟨hok, haccept⟩ | ⟨row, hstatus, hfirst⟩
  · exact .ok (fun data h => absurd h (hi data)) hok haccept
  · exact .rejected row hi hstatus hfirst

/-- Every step adds a record whose status has its cause. -/
theorem exec_statusCause {i : Instr} {s t : State} (h : exec i s = .next t) :
    ∃ r : StepRecord, t.outputs = s.outputs ++ [r] ∧ StatusCause i r := by
  cases exec_next_cases h with
  | idle => exact ⟨_, rfl, .of_quiet (by simp)⟩
  | reset => exact ⟨_, rfl, .of_quiet (by simp)⟩
  | rdcnt => exact ⟨_, rfl, .of_quiet (by simp)⟩
  | encode data => exact ⟨_, rfl, .of_encode data⟩
  | feed _ b d _ hi hd hn =>
    cases hn with
    | hdr => exact ⟨_, rfl, .of_quiet hi.ne_encode⟩
    | discard => exact ⟨_, rfl, .of_quiet hi.ne_encode⟩
    | row => exact ⟨_, rfl, .of_quiet hi.ne_encode⟩
    | last B => exact ⟨_, rfl, .of_delivery hi.ne_encode _ B _⟩

section StatusCause

variable {i : Instr} {r : StepRecord} (h : StatusCause i r)
include h

theorem StatusCause.ok_iff :
    r.status = .ok ↔ (∀ data, i = .encode data → data.length = 8) ∧ ∀ e ∈ r.events, e.answer = .accept := by
  cases h with
  | ok hi hstatus haccept => exact iff_of_true hstatus ⟨hi, haccept⟩
  | wrongLength data hi hlen hstatus => exact iff_of_false (by simp [hstatus]) fun hok => hlen (hok.1 data hi)
  | rejected row _ hstatus hfirst =>
    exact iff_of_false (by simp [hstatus]) fun hok => not_firstRejected_of_accepted hok.2 hfirst

theorem StatusCause.invalidBitmapLength_iff (n : Nat) :
    r.status = .invalidBitmapLength n ↔ n ≠ 8 ∧ ∃ data, i = .encode data ∧ data.length = n := by
  cases h with
  | ok hi hstatus => exact iff_of_false (by simp [hstatus]) fun ⟨hn, data, he, hlen⟩ => hn (hlen ▸ hi data he)
  | wrongLength data hi hlen hstatus =>
    subst hi
    simp only [hstatus, Status.invalidBitmapLength.injEq, Instr.encode.injEq, exists_eq_left']
    exact ⟨fun hn => ⟨hn ▸ hlen, hn⟩, And.right⟩
  | rejected row hi hstatus => exact iff_of_false (by simp [hstatus]) fun ⟨_, data, he, _⟩ => hi data he

theorem StatusCause.sinkRejected_iff (row : Nat) : r.status = .sinkRejected row ↔ FirstRejected r.events row := by
  cases h with
  | ok _ hstatus haccept => exact iff_of_false (by simp [hstatus]) (not_firstRejected_of_accepted haccept)
  | wrongLength _ _ _ hstatus hevents =>
    exact iff_of_false (by simp [hstatus]) (not_firstRejected_of_accepted (by simp [hevents]))
  | rejected row' _ hstatus hfirst =>
    rw [hstatus, Status.sinkRejected.injEq]
    exact ⟨fun hrow => hrow ▸ hfirst, hfirst.unique⟩

end StatusCause

/-- Settles O30: the causes of a status exclude each other, so each status is equivalent to its own. -/
theorem statusesAndTheirCauses : Obligations.StatusesAndTheirCauses := by
  refine ⟨⟨rfl, fun _ => rfl, fun _ => rfl⟩, fun i s t h => ?_⟩
  obtain ⟨r, hout, hcause⟩ := exec_statusCause h
  exact ⟨r, hout, hcause.ok_iff, hcause.invalidBitmapLength_iff, hcause.sinkRejected_iff, exec_events_ne_nil h hout⟩

/-! ### Earlier records -/

/-- What an instruction does after any earlier records is what it does after none, with those records before. -/
theorem exec_of_bare (i : Instr) (s : State) (earlier : List StepRecord) :
    exec i { s with outputs := earlier } = mapNext (·.between earlier s.inputs) (exec i s.bare) := by
  rw [← exec_between, State.bare, State.between, List.append_nil]

/-- Settles O31: both machines do what the machine with nothing shown does. -/
theorem earlierStatusesChangeNothing : Obligations.EarlierStatusesChangeNothing := by
  intro i s earlier
  rw [exec_of_bare i s earlier, show exec i s = _ from exec_of_bare i s s.outputs]
  cases hbare : exec i s.bare with
  | next u =>
    obtain ⟨r, hout, -⟩ := exec_statusCause hbare
    have hout : u.outputs = [r] := hout
    simp [mapNext, State.between, hout]
  | fault e => simp [mapNext]
  | refused e => simp [mapNext]

/-! ### Legal inputs -/

/-- Settles O36: RESET runs on any instance, and `step_sound` refuses no other legal word to a constructed one. -/
theorem everyLegalInputCompletes : Obligations.EveryLegalInputCompletes := by
  intro s rest hs
  refine ⟨fun id w hin hlegal htarget => ?_, fun data hin => ⟨_, step_request hin⟩⟩
  rcases htarget with hbuilt | ⟨hlo, hhi⟩
  · rcases step_sound hs with hnext | ⟨_, _, _, _, -, hin', hcause⟩
    · exact hnext
    · cases hin.symm.trans hin'
      rcases hcause with ⟨-, hcounter, hw⟩ | ⟨-, hnone⟩
      · exact absurd hlegal (by simp [hcounter, hw])
      · simp [hnone] at hbuilt
  · obtain ⟨-, -, hreset, -⟩ := commandWordsByValue.1 s.params.hasDiscardCounter w
    exact ⟨_, step_command hin (hreset hlo hhi)⟩

end Sys2Proof.Machine
end
